-- ==== Sys2Proof/Word.lean ====
section
/-!
DEFINITION. The value types of the chip8-rs core: bytes, 16-bit words, 12-bit addresses, nibbles and
register numbers (00_scope.md R6, R8).
-/

namespace Sys2Proof

/-- An 8-bit value: a memory cell, a general register, a timer (R6). -/
abbrev Byte := BitVec 8

/-- A 16-bit value: I, PC, a stack slot, an instruction word (R6, R90). -/
abbrev Word := BitVec 16

/-- The 12-bit address field `nnn` of an instruction word (R91). -/
abbrev Addr := BitVec 12

/-- A 4-bit field of an instruction word (R91). -/
abbrev Nibble := BitVec 4

/-- A register index: the contents of an `x` or `y` field, 0 to 15 (R22, R91). -/
abbrev Reg := Fin 16

end Sys2Proof
end

