-- ==== Sys2Proof/Config.lean ====
section
/-!
DEFINITION. The parameters the spec leaves to an implementation (00_scope.md R7), each at the default
the spec takes, and the free values (R173, R243 under `KEY_SELECT = any`). The operations take the
parameter as an argument, so every setting the spec names has its meaning; the instructions apply the
defaults written here. `FONT` is an argument of `construct` and has no constant here (R301).
-/

namespace Sys2Proof

/-- `KEY_INDEX_MODE` (R7, D8): what SKP and SKNP do when `V[x] > 15`. -/
inductive KeyIndexMode where
  | fault       -- raise KeyIndexOutOfRange: the default (R240)
  | mask        -- use V[x] mod 16
  | notPressed  -- no such key is down
  deriving DecidableEq, Repr

/-- `KEY_SELECT` (R7, D9): which key LD Vx,K reports when several are pressed. -/
inductive KeySelect where
  | lowest  -- the least index: the default (R243)
  | any     -- some pressed key, not said which
  deriving DecidableEq, Repr

/-- `VF_ALIAS` (R7, D10): a flag-writing arithmetic instruction whose destination is VF. -/
inductive VfAlias where
  | resultLast  -- VF ends holding the result: the default (R161)
  | flagLast    -- VF ends holding the flag
  | refuse      -- the form is not admitted
  deriving DecidableEq, Repr

namespace Config

/-- `MEM_FILL` (R7, R35, D14): every byte that neither font nor program covers at reset, and so what
an address not listed in memory reads as. -/
def memFill : Byte := 0x00#8

/-- `DECODE_STRICT` (R7, R95, D3). -/
def decodeStrict : Bool := false

/-- `KEY_INDEX_MODE` (R7, D8). -/
def keyIndexMode : KeyIndexMode := .fault

/-- `KEY_SELECT` (R7, D9). -/
def keySelect : KeySelect := .lowest

/-- `VF_ALIAS` (R7, D10). -/
def vfAlias : VfAlias := .resultLast

/-- `TIMER_TICK` (R7, R273, D11): the input `tick` of a cycle for which the host names none. -/
def tickDefault : Bool := true

/-- `SPRITE_MSB_LEFT` (R7, R220, D16). -/
def spriteMsbLeft : Bool := true

/-- FREE VALUE (R173, D12, U7): the random byte of the n-th cycle, when the host's script names none.
It has no body: nothing can be proved of it. Log entry 3. -/
opaque freeRnd : Nat → Byte

/-- FREE VALUE (D9, U6): which pressed key LD Vx,K reports in the n-th cycle under
`KEY_SELECT = any`; the default setting never reads it. Log entry 6. -/
opaque freeKeyChoice : Nat → Nat

end Config

end Sys2Proof
end

