-- ==== Sys2Proof/Syntax.lean ====
section
/-!
DEFINITION. The 34 instructions (30_encoding.md R96), one constructor per row of the opcode table, in
the table's order. A field that the decoder extracts and the instruction does not use (R95: `z`, the
second nibble of CLS and RET; `n` of SE Vx,Vy and SNE Vx,Vy; `y` of SHR and SHL) is kept, so that an
instruction determines its word.
-/

namespace Sys2Proof

inductive Instr where
  | cls (z : Nibble)                    -- 0_E0  CLS
  | ret (z : Nibble)                    -- 0_EE  RET
  | jp (nnn : Addr)                     -- 1NNN  JP nnn
  | call (nnn : Addr)                   -- 2NNN  CALL nnn
  | seImm (x : Reg) (nn : Byte)         -- 3XNN  SE Vx,nn
  | sneImm (x : Reg) (nn : Byte)        -- 4XNN  SNE Vx,nn
  | seReg (x y : Reg) (n : Nibble)      -- 5XY_  SE Vx,Vy
  | ldImm (x : Reg) (nn : Byte)         -- 6XNN  LD Vx,nn
  | addImm (x : Reg) (nn : Byte)        -- 7XNN  ADD Vx,nn
  | ldReg (x y : Reg)                   -- 8XY0  LD Vx,Vy
  | orReg (x y : Reg)                   -- 8XY1  OR Vx,Vy
  | andReg (x y : Reg)                  -- 8XY2  AND Vx,Vy
  | xorReg (x y : Reg)                  -- 8XY3  XOR Vx,Vy
  | addReg (x y : Reg)                  -- 8XY4  ADD Vx,Vy
  | subReg (x y : Reg)                  -- 8XY5  SUB Vx,Vy
  | shr (x y : Reg)                     -- 8XY6  SHR Vx
  | subnReg (x y : Reg)                 -- 8XY7  SUBN Vx,Vy
  | shl (x y : Reg)                     -- 8XYE  SHL Vx
  | sneReg (x y : Reg) (n : Nibble)     -- 9XY_  SNE Vx,Vy
  | ldI (nnn : Addr)                    -- ANNN  LD I,nnn
  | jpV0 (nnn : Addr)                   -- BNNN  JP V0,nnn
  | rnd (x : Reg) (nn : Byte)           -- CXNN  RND Vx,nn
  | drw (x y : Reg) (n : Nibble)        -- DXYN  DRW Vx,Vy,n
  | skp (x : Reg)                       -- EX9E  SKP Vx
  | sknp (x : Reg)                      -- EXA1  SKNP Vx
  | ldVxDt (x : Reg)                    -- FX07  LD Vx,DT
  | ldVxK (x : Reg)                     -- FX0A  LD Vx,K
  | ldDtVx (x : Reg)                    -- FX15  LD DT,Vx
  | ldStVx (x : Reg)                    -- FX18  LD ST,Vx
  | addIVx (x : Reg)                    -- FX1E  ADD I,Vx
  | ldF (x : Reg)                       -- FX29  LD F,Vx
  | ldB (x : Reg)                       -- FX33  LD B,Vx
  | storeRegs (x : Reg)                 -- FX55  LD [I],Vx
  | loadRegs (x : Reg)                  -- FX65  LD Vx,[I]
  deriving DecidableEq, Repr

end Sys2Proof
end

