-- ==== Sys2Proof/WellFormed.lean ====
section
/-!
DEFINITION. Which instructions are well formed (30_encoding.md R95, R97). The widths of the fields are
in their types. What is left to check is the ignored nibbles, which `DECODE_STRICT = true` requires to
be zero; with the default every instruction is well formed.
-/

namespace Sys2Proof

/-- Whether the nibbles that no decode level examines are all zero: the second nibble of class 0 and
the low nibble of classes 5 and 9 (R95 (a), (b)); the `y` of SHR and SHL is free in both settings
(R95 (c)). -/
def Instr.ignoredZero : Instr → Bool
  | .cls z => z == 0
  | .ret z => z == 0
  | .seReg _ _ n => n == 0
  | .sneReg _ _ n => n == 0
  | .jp _ | .call _ | .seImm _ _ | .sneImm _ _ | .ldImm _ _ | .addImm _ _ | .ldReg _ _
  | .orReg _ _ | .andReg _ _ | .xorReg _ _ | .addReg _ _ | .subReg _ _ | .shr _ _
  | .subnReg _ _ | .shl _ _ | .ldI _ | .jpV0 _ | .rnd _ _ | .drw _ _ _ | .skp _ | .sknp _
  | .ldVxDt _ | .ldVxK _ | .ldDtVx _ | .ldStVx _ | .addIVx _ | .ldF _ | .ldB _
  | .storeRegs _ | .loadRegs _ => true

/-- Well-formedness under a setting of `DECODE_STRICT`. -/
def Instr.wellFormedWith (strict : Bool) (i : Instr) : Bool := !strict || i.ignoredZero

/-- Well-formedness under the setting the machine runs with (R7). -/
def Instr.wellFormed (i : Instr) : Bool := i.wellFormedWith Config.decodeStrict

end Sys2Proof
end

