-- ==== Sys2Proof/Decode.lean ====
section
/-!
DEFINITION. The decoder (30_encoding.md R91, R94, R95, R97, R99), total on every byte string and
rejecting by name, and the encoder and the opcode map (R96) written from the table's patterns.
-/

namespace Sys2Proof

/-- Why bytes are not an instruction. -/
inductive DecodeError where
  /-- The word matches no row of the opcode map (R97). Safe: the machine faults. -/
  | noPattern (w : Word)
  /-- `DECODE_STRICT = true` and an ignored nibble of the word is not zero (R95). Safe. -/
  | ignoredBits (w : Word)
  /-- Fewer than the two bytes of an instruction word (R90). Safe; a fetch never meets it. -/
  | truncated (got : Nat)
  deriving DecidableEq, Repr

/-! ## Fields of an instruction word (R91) -/

/-- `op = w[15:12]`. -/
def fieldOp (w : Word) : Nibble := w.extractLsb' 12 4
/-- The nibble `w[11:8]`. -/
def nibbleX (w : Word) : Nibble := w.extractLsb' 8 4
/-- The nibble `w[7:4]`. -/
def nibbleY (w : Word) : Nibble := w.extractLsb' 4 4
/-- `n = w[3:0]`. -/
def fieldN (w : Word) : Nibble := w.extractLsb' 0 4
/-- `nn = w[7:0]`. -/
def fieldNN (w : Word) : Byte := w.extractLsb' 0 8
/-- `nnn = w[11:0]`. -/
def fieldNNN (w : Word) : Addr := w.extractLsb' 0 12

/-- A 4-bit field as a register index (R22). -/
def regOf (n : Nibble) : Reg := n.toFin
/-- A register index as a 4-bit field. -/
def nibbleOf (x : Reg) : Nibble := BitVec.ofFin x

/-- `x = w[11:8]`, the register index. -/
def fieldX (w : Word) : Reg := regOf (nibbleX w)
/-- `y = w[7:4]`, the register index. -/
def fieldY (w : Word) : Reg := regOf (nibbleY w)

/-! ## The two-level decode (R94, R99) -/

/-- Class 0x0: the low byte selects; the second nibble is not examined (R95 (b)). -/
def decodeClass0 (w : Word) : Option Instr :=
  match (fieldNN w).toNat with
  | 0xE0 => some (.cls (nibbleX w))
  | 0xEE => some (.ret (nibbleX w))
  | _ => none

/-- Class 0x8: the low nibble selects; y is an operand. -/
def decodeClass8 (w : Word) : Option Instr :=
  match (fieldN w).toNat with
  | 0x0 => some (.ldReg (fieldX w) (fieldY w))
  | 0x1 => some (.orReg (fieldX w) (fieldY w))
  | 0x2 => some (.andReg (fieldX w) (fieldY w))
  | 0x3 => some (.xorReg (fieldX w) (fieldY w))
  | 0x4 => some (.addReg (fieldX w) (fieldY w))
  | 0x5 => some (.subReg (fieldX w) (fieldY w))
  | 0x6 => some (.shr (fieldX w) (fieldY w))
  | 0x7 => some (.subnReg (fieldX w) (fieldY w))
  | 0xE => some (.shl (fieldX w) (fieldY w))
  | _ => none

/-- Class 0xE: the low byte selects. -/
def decodeClassE (w : Word) : Option Instr :=
  match (fieldNN w).toNat with
  | 0x9E => some (.skp (fieldX w))
  | 0xA1 => some (.sknp (fieldX w))
  | _ => none

/-- Class 0xF: the low byte selects. -/
def decodeClassF (w : Word) : Option Instr :=
  match (fieldNN w).toNat with
  | 0x07 => some (.ldVxDt (fieldX w))
  | 0x0A => some (.ldVxK (fieldX w))
  | 0x15 => some (.ldDtVx (fieldX w))
  | 0x18 => some (.ldStVx (fieldX w))
  | 0x1E => some (.addIVx (fieldX w))
  | 0x29 => some (.ldF (fieldX w))
  | 0x33 => some (.ldB (fieldX w))
  | 0x55 => some (.storeRegs (fieldX w))
  | 0x65 => some (.loadRegs (fieldX w))
  | _ => none

/-- The operation class selects; four classes look at a second key (R94, R99). -/
def decodeLoose (w : Word) : Option Instr :=
  match (fieldOp w).toNat with
  | 0x0 => decodeClass0 w
  | 0x1 => some (.jp (fieldNNN w))
  | 0x2 => some (.call (fieldNNN w))
  | 0x3 => some (.seImm (fieldX w) (fieldNN w))
  | 0x4 => some (.sneImm (fieldX w) (fieldNN w))
  | 0x5 => some (.seReg (fieldX w) (fieldY w) (fieldN w))
  | 0x6 => some (.ldImm (fieldX w) (fieldNN w))
  | 0x7 => some (.addImm (fieldX w) (fieldNN w))
  | 0x8 => decodeClass8 w
  | 0x9 => some (.sneReg (fieldX w) (fieldY w) (fieldN w))
  | 0xA => some (.ldI (fieldNNN w))
  | 0xB => some (.jpV0 (fieldNNN w))
  | 0xC => some (.rnd (fieldX w) (fieldNN w))
  | 0xD => some (.drw (fieldX w) (fieldY w) (fieldN w))
  | 0xE => decodeClassE w
  | 0xF => decodeClassF w
  | _ => none

/-- The decoder on one instruction word under a setting of `DECODE_STRICT` (R95, R97, R99). -/
def decodeWord (strict : Bool) (w : Word) : Except DecodeError Instr :=
  match decodeLoose w with
  | none => .error (.noPattern w)
  | some i => if i.wellFormedWith strict then .ok i else .error (.ignoredBits w)

/-- The big-endian word of two bytes, the one at the lower address first (R63). -/
def wordOfBytes (hi lo : Byte) : Word := (hi ++ lo : BitVec (8 + 8))

/-- The decoder on a byte string: the instruction of its first two bytes and the bytes after them
(R63, R90). -/
def decodeBytes : List Byte → Except DecodeError (Instr × List Byte)
  | hi :: lo :: rest =>
    match decodeWord Config.decodeStrict (wordOfBytes hi lo) with
    | .ok i => .ok (i, rest)
    | .error e => .error e
  | [_] => .error (.truncated 1)
  | [] => .error (.truncated 0)

/-- The two bytes of a word as memory holds them, lower address first (R63). -/
def bytesOfWord (w : Word) : List Byte := [w.extractLsb' 8 8, w.extractLsb' 0 8]

/-- The instruction word whose `nbits` low bits are those of `w`, the bits above being zero. -/
def tableWord (nbits w : Nat) : Word := BitVec.ofNat 16 (w % 2 ^ nbits)

/-- What the decoder reads from an instruction whose bits, numbered as the opcode table numbers them,
are `w`. -/
def decodeTableWord (nbits w : Nat) : Option Instr :=
  match decodeBytes (bytesOfWord (tableWord nbits w)) with
  | .ok (i, _) => some i
  | .error _ => none

/-! ## The encoder, from the patterns of the opcode map (R92, R96) -/

/-- Formats `XYN`, `XK` with split byte, `XS` and `Z`: four nibbles, the class first. -/
def pack4 (a b c d : Nibble) : Word := (a ++ b ++ c ++ d : BitVec (4 + 4 + 4 + 4))
/-- Format `XK`: class, register, byte; also `Z` and `XS`, whose low byte is the selector. -/
def packXK (op x : Nibble) (nn : Byte) : Word := (op ++ x ++ nn : BitVec (4 + 4 + 8))
/-- Format `A`: class and address. -/
def packA (op : Nibble) (nnn : Addr) : Word := (op ++ nnn : BitVec (4 + 12))

/-- The word of an instruction (R96). -/
def encode : Instr → Word
  | .cls z => packXK 0x0#4 z 0xE0#8
  | .ret z => packXK 0x0#4 z 0xEE#8
  | .jp nnn => packA 0x1#4 nnn
  | .call nnn => packA 0x2#4 nnn
  | .seImm x nn => packXK 0x3#4 (nibbleOf x) nn
  | .sneImm x nn => packXK 0x4#4 (nibbleOf x) nn
  | .seReg x y n => pack4 0x5#4 (nibbleOf x) (nibbleOf y) n
  | .ldImm x nn => packXK 0x6#4 (nibbleOf x) nn
  | .addImm x nn => packXK 0x7#4 (nibbleOf x) nn
  | .ldReg x y => pack4 0x8#4 (nibbleOf x) (nibbleOf y) 0x0#4
  | .orReg x y => pack4 0x8#4 (nibbleOf x) (nibbleOf y) 0x1#4
  | .andReg x y => pack4 0x8#4 (nibbleOf x) (nibbleOf y) 0x2#4
  | .xorReg x y => pack4 0x8#4 (nibbleOf x) (nibbleOf y) 0x3#4
  | .addReg x y => pack4 0x8#4 (nibbleOf x) (nibbleOf y) 0x4#4
  | .subReg x y => pack4 0x8#4 (nibbleOf x) (nibbleOf y) 0x5#4
  | .shr x y => pack4 0x8#4 (nibbleOf x) (nibbleOf y) 0x6#4
  | .subnReg x y => pack4 0x8#4 (nibbleOf x) (nibbleOf y) 0x7#4
  | .shl x y => pack4 0x8#4 (nibbleOf x) (nibbleOf y) 0xE#4
  | .sneReg x y n => pack4 0x9#4 (nibbleOf x) (nibbleOf y) n
  | .ldI nnn => packA 0xA#4 nnn
  | .jpV0 nnn => packA 0xB#4 nnn
  | .rnd x nn => packXK 0xC#4 (nibbleOf x) nn
  | .drw x y n => pack4 0xD#4 (nibbleOf x) (nibbleOf y) n
  | .skp x => packXK 0xE#4 (nibbleOf x) 0x9E#8
  | .sknp x => packXK 0xE#4 (nibbleOf x) 0xA1#8
  | .ldVxDt x => packXK 0xF#4 (nibbleOf x) 0x07#8
  | .ldVxK x => packXK 0xF#4 (nibbleOf x) 0x0A#8
  | .ldDtVx x => packXK 0xF#4 (nibbleOf x) 0x15#8
  | .ldStVx x => packXK 0xF#4 (nibbleOf x) 0x18#8
  | .addIVx x => packXK 0xF#4 (nibbleOf x) 0x1E#8
  | .ldF x => packXK 0xF#4 (nibbleOf x) 0x29#8
  | .ldB x => packXK 0xF#4 (nibbleOf x) 0x33#8
  | .storeRegs x => packXK 0xF#4 (nibbleOf x) 0x55#8
  | .loadRegs x => packXK 0xF#4 (nibbleOf x) 0x65#8

/-! ## The opcode map as masks and matches (R96) -/

/-- The mask and the match of an instruction's row of the opcode map, as R96 prints them. -/
def opcodeRow : Instr → Word × Word
  | .cls _ => (0xF0FF#16, 0x00E0#16)
  | .ret _ => (0xF0FF#16, 0x00EE#16)
  | .jp _ => (0xF000#16, 0x1000#16)
  | .call _ => (0xF000#16, 0x2000#16)
  | .seImm _ _ => (0xF000#16, 0x3000#16)
  | .sneImm _ _ => (0xF000#16, 0x4000#16)
  | .seReg _ _ _ => (0xF000#16, 0x5000#16)
  | .ldImm _ _ => (0xF000#16, 0x6000#16)
  | .addImm _ _ => (0xF000#16, 0x7000#16)
  | .ldReg _ _ => (0xF00F#16, 0x8000#16)
  | .orReg _ _ => (0xF00F#16, 0x8001#16)
  | .andReg _ _ => (0xF00F#16, 0x8002#16)
  | .xorReg _ _ => (0xF00F#16, 0x8003#16)
  | .addReg _ _ => (0xF00F#16, 0x8004#16)
  | .subReg _ _ => (0xF00F#16, 0x8005#16)
  | .shr _ _ => (0xF00F#16, 0x8006#16)
  | .subnReg _ _ => (0xF00F#16, 0x8007#16)
  | .shl _ _ => (0xF00F#16, 0x800E#16)
  | .sneReg _ _ _ => (0xF000#16, 0x9000#16)
  | .ldI _ => (0xF000#16, 0xA000#16)
  | .jpV0 _ => (0xF000#16, 0xB000#16)
  | .rnd _ _ => (0xF000#16, 0xC000#16)
  | .drw _ _ _ => (0xF000#16, 0xD000#16)
  | .skp _ => (0xF0FF#16, 0xE09E#16)
  | .sknp _ => (0xF0FF#16, 0xE0A1#16)
  | .ldVxDt _ => (0xF0FF#16, 0xF007#16)
  | .ldVxK _ => (0xF0FF#16, 0xF00A#16)
  | .ldDtVx _ => (0xF0FF#16, 0xF015#16)
  | .ldStVx _ => (0xF0FF#16, 0xF018#16)
  | .addIVx _ => (0xF0FF#16, 0xF01E#16)
  | .ldF _ => (0xF0FF#16, 0xF029#16)
  | .ldB _ => (0xF0FF#16, 0xF033#16)
  | .storeRegs _ => (0xF0FF#16, 0xF055#16)
  | .loadRegs _ => (0xF0FF#16, 0xF065#16)

/-- Whether a word selects an instruction's row: `(w and mask) = match` (R96). -/
abbrev selectsRow (w : Word) (i : Instr) : Prop := w &&& (opcodeRow i).1 = (opcodeRow i).2

end Sys2Proof
end

