-- ==== Sys2Proof/Machine/State.lean ====
section
/-!
DEFINITION. The state of the core (10_state.md R20 to R36) as plain data, the host's side of the
interface as data the step reads (00_scope.md R5, 60_exceptions.md R280 to R283), the faults
(60_exceptions.md R260) and the state after reset (R35).
-/

namespace Sys2Proof.Machine

/-- `MEM` (R21): address and byte pairs, addresses strictly rising, none equal to the byte an unlisted
address reads as (`Config.memFill`). -/
abbrev Memory := List Host.Cell

/-- `FB` (R30): 32 rows of 64 pixels, `fb[y][x]`. -/
abbrev Screen := Vector (Vector Bool 64) 32

/-- `KEYS` (R29): 16 flags, true meaning pressed. -/
abbrev Keys := Vector Bool 16

/-- The host operations that write state between two cycles (R5, R280, R281, R283). -/
inductive HostOp where
  | setKeys (k : Keys)  -- SetKeys(k)
  | clearRedraw         -- ClearRedraw()
  deriving DecidableEq, Repr

/-- What the host does for one cycle: the operations it performs before the cycle, in order, and the
cycle's two inputs (R5, R306). `rnd = none`: the host's byte is not named, it is a free value. -/
structure CycleInput where
  ops : List HostOp
  rnd : Option Byte
  tick : Bool
  deriving DecidableEq, Repr

/-- The machine state. The first eleven fields are the spec's (R20); the last five are the model's own:
the host's side of the interface, held as data (R33 says that inputs and outputs are not registers). -/
structure State where
  /-- `MEM`, memory (R21). -/
  mem : Memory
  /-- `V`, the general registers V0 to VF (R22, R23). -/
  v : Vector Byte 16
  /-- `I`, the index register (R24). -/
  i : Word
  /-- `PC`, the program counter (R25). -/
  pc : Word
  /-- `STACK`, the call stack, slots at `SP` and above stale (R26). -/
  stack : Vector Word 16
  /-- `SP`, the stack pointer, 0 to 16 (R27). -/
  sp : Fin 17
  /-- `DT`, the delay timer (R28). -/
  dt : Byte
  /-- `ST`, the sound timer (R28). -/
  st : Byte
  /-- `KEYS`, the keypad snapshot (R29). -/
  keys : Keys
  /-- `FB`, the framebuffer (R30). -/
  fb : Screen
  /-- `RF`, the redraw flag (R31). -/
  rf : Bool
  /-- MODEL'S OWN: what the host does for the coming cycles, oldest first; none left: the defaults. -/
  script : List CycleInput
  /-- MODEL'S OWN: the input `rnd` of the cycle under way (R5), `none` where the host named none. -/
  rnd : Option Byte
  /-- MODEL'S OWN: the input `tick` of the cycle under way (R5, R273). -/
  tick : Bool
  /-- MODEL'S OWN: how many cycles have begun, the index of the free values. -/
  cycles : Nat
  /-- MODEL'S OWN: the output `audio_tick` of the last cycle (R263, R274). -/
  audioTick : Bool
  deriving DecidableEq, Repr

/-- The five faults (R260), each with the information the spec records. All are safe: the cycle ends
and nothing is proved beyond it (R262, R264). -/
inductive Fault where
  /-- Code 1: the fetched word matches no row of the opcode map. Raised by decode, any cycle. Safe. -/
  | decodeFailure (w : Word)
  /-- Code 2: CALL with SP = 16; the PC of the CALL. Raised by CALL. Safe. -/
  | stackOverflow (pc : Word)
  /-- Code 3: RET with SP = 0; the PC of the RET. Raised by RET. Safe. -/
  | stackUnderflow (pc : Word)
  /-- Code 4: an access whose highest address exceeds 4095; that address. Raised by the fetch, DRW,
  LD B,Vx, LD [I],Vx and LD Vx,[I]. Safe. -/
  | addressOutOfRange (addr : Nat)
  /-- Code 5: SKP or SKNP with V[x] > 15; the value of V[x]. Raised by SKP and SKNP. Safe. -/
  | keyIndexOutOfRange (k : Byte)
  deriving DecidableEq, Repr

/-- Reasons for which the model gives an instruction no meaning. -/
inductive Refusal where
  /-- An instruction that has no meaning in the model yet. Raised by `exec` only. Safe. -/
  | notModelled (mnemonic : String)
  /-- A flag-writing instruction with destination VF under `VF_ALIAS = refuse` (R161, D10); the default
  setting never raises it. Safe. -/
  | vfDestination
  deriving DecidableEq, Repr

/-- The outcome of an instruction or of a step. -/
abbrev Result := Host.Outcome State Fault Refusal

/-- The state right after reset (R35, R303) with the font of 80 zero bytes and the empty program: those
are arguments of `construct`, which builds the state for every font and program (log entries 1, 2). -/
def State.reset : State where
  mem := []
  v := Vector.replicate 16 0
  i := 0
  pc := 512
  stack := Vector.replicate 16 0
  sp := 0
  dt := 0
  st := 0
  keys := Vector.replicate 16 false
  fb := Vector.replicate 32 (Vector.replicate 64 false)
  rf := false
  script := []
  rnd := none
  tick := Config.tickDefault
  cycles := 0
  audioTick := false

end Sys2Proof.Machine
end

