-- ==== Sys2Proof/Machine/Ops.lean ====
section
/-!
DEFINITION. The named operations on memory, registers, PC, call stack, framebuffer, timers and the
host's side of the interface, and raising a fault, which every instruction shares.
-/

namespace Sys2Proof.Machine

/-! ## Memory (20_memory.md) -/

/-- The byte at an address: the listed one, else what an unlisted address reads as (R21, R35). -/
def Memory.read : Memory → Nat → Byte
  | [], _ => Config.memFill
  | (b, x) :: m, a => if b = a then x else Memory.read m a

/-- `m` with a cell in front of it, left out where it holds what an unlisted address reads as. -/
def Memory.consCell (a : Nat) (x : Byte) (m : Memory) : Memory :=
  if x = Config.memFill then m else (a, x) :: m

/-- Storing one byte, keeping the canonical form (R66: memory holds the last value written). -/
def Memory.write : Memory → Nat → Byte → Memory
  | [], a, x => Memory.consCell a x []
  | (b, y) :: m, a, x =>
    if a < b then Memory.consCell a x ((b, y) :: m)
    else if a = b then Memory.consCell a x m
    else (b, y) :: Memory.write m a x

/-- Storing bytes at ascending addresses, in ascending order (R64). -/
def Memory.writeBytes : Memory → Nat → List Byte → Memory
  | m, _, [] => m
  | m, a, x :: xs => Memory.writeBytes (Memory.write m a x) (a + 1) xs

/-- The `n` bytes at ascending addresses from `a` (R64). -/
def Memory.readBytes (m : Memory) : Nat → Nat → List Byte
  | _, 0 => []
  | a, n + 1 => m.read a :: Memory.readBytes m (a + 1) n

/-- The canonical form from an address on: addresses rising and below 4096, no cell equal to what an
unlisted address reads as. -/
def Memory.wfFrom : Nat → Memory → Bool
  | _, [] => true
  | lo, (a, x) :: m =>
    decide (lo ≤ a) && decide (a < 4096) && decide (x ≠ Config.memFill) && Memory.wfFrom (a + 1) m

/-- The canonical form of memory (R21: addresses 0 to 4095). -/
def Memory.wf (m : Memory) : Bool := Memory.wfFrom 0 m

/-- The byte of memory at an address. -/
def State.byteAt (s : State) (a : Nat) : Byte := s.mem.read a

/-- Storing bytes at ascending addresses. -/
def State.storeBytes (s : State) (a : Nat) (xs : List Byte) : State :=
  { s with mem := s.mem.writeBytes a xs }

/-- Loading bytes at ascending addresses. -/
def State.bytesAt (s : State) (a n : Nat) : List Byte := s.mem.readBytes a n

/-! ## Faults (60_exceptions.md): the one way an instruction raises one -/

/-- `raise f`: the cycle ends with the fault, no state changes, control goes nowhere (R10, R262, R263,
R266). There is no trap entry and no trap return on this hardware (R266, R267). -/
def raise (f : Fault) : Result := .fault f

/-- The numeric code of a fault (R260). -/
def Fault.code : Fault → Nat
  | .decodeFailure _ => 1
  | .stackOverflow _ => 2
  | .stackUnderflow _ => 3
  | .addressOutOfRange _ => 4
  | .keyIndexOutOfRange _ => 5

/-- The recorded information of a fault as a number (R260). -/
def Fault.info : Fault → Nat
  | .decodeFailure w => w.toNat
  | .stackOverflow pc => pc.toNat
  | .stackUnderflow pc => pc.toNat
  | .addressOutOfRange a => a
  | .keyIndexOutOfRange k => k.toNat

/-- The highest address of an access to `n` bytes at `a`, sum on unbounded integers (R61). -/
def lastAddr (a n : Nat) : Nat := a + n - 1

/-- Whether an access to `n` bytes at `a` is wholly in range; one to no bytes always is (R61, R67). -/
def inRange (a n : Nat) : Bool := n == 0 || decide (lastAddr a n ≤ 4095)

/-- The range check, made for the whole access before anything changes (R61, R206). -/
def withRange (a n : Nat) (r : Result) : Result :=
  if inRange a n then r else raise (.addressOutOfRange (lastAddr a n))

/-! ## Registers and the program counter (10_state.md) -/

/-- `V[x]` (R22): no register is hard-wired. -/
def State.reg (s : State) (x : Reg) : Byte := s.v[x.val]

/-- `V[x] <- b` (R22). -/
def State.setReg (s : State) (x : Reg) (b : Byte) : State := { s with v := s.v.set x.val b x.isLt }

/-- Registers from index `k` on loaded with bytes in ascending order (R205). -/
def fillRegs : List Byte → Nat → Vector Byte 16 → Vector Byte 16
  | [], _, v => v
  | b :: bs, k, v => fillRegs bs (k + 1) (v.setIfInBounds k b)

/-- `V[0], V[1], …` loaded with bytes. -/
def State.loadV (s : State) (bs : List Byte) : State := { s with v := fillRegs bs 0 s.v }

/-- `PC <- target` (R10). -/
def State.setPc (s : State) (t : Word) : State := { s with pc := t }

/-- `PC <- PC + 2` (R130). -/
def State.advance (s : State) : State := s.setPc (s.pc + 2)

/-- A skip: `PC <- PC + 4` if the condition holds, else `PC <- PC + 2` (R130). -/
def State.skipIf (s : State) (c : Bool) : State := if c then s.setPc (s.pc + 4) else s.advance

/-- `I <- w` (R24): held as it is, never masked. -/
def State.setI (s : State) (w : Word) : State := { s with i := w }

/-- `DT <- b` (R28). -/
def State.setDt (s : State) (b : Byte) : State := { s with dt := b }

/-- `ST <- b` (R28). -/
def State.setSt (s : State) (b : Byte) : State := { s with st := b }

/-! ## The call stack (R26, R27) -/

/-- Pushing a word: none when the stack is full (R26, R133). -/
def State.push (s : State) (w : Word) : Option State :=
  if h : s.sp.val < 16 then
    some { s with stack := s.stack.set s.sp.val w h, sp := ⟨s.sp.val + 1, by omega⟩ }
  else none

/-- Popping the most recent word: none when the stack is empty; the slot keeps its bits (R26, R131). -/
def State.pop (s : State) : Option (Word × State) :=
  if h : 0 < s.sp.val then
    some (s.stack[s.sp.val - 1], { s with sp := ⟨s.sp.val - 1, by omega⟩ })
  else none

/-! ## The framebuffer (43_display.md) -/

/-- `FB[y][x]`, false outside the grid. -/
def Screen.pixel (fb : Screen) (y x : Nat) : Bool :=
  if h : y < 32 ∧ x < 64 then (fb[y]'h.1)[x]'h.2 else false

/-- `FB[y][x] <- b`, nothing outside the grid. -/
def Screen.setPixel (fb : Screen) (y x : Nat) (b : Bool) : Screen :=
  if h : y < 32 ∧ x < 64 then fb.set y ((fb[y]'h.1).set x b h.2) h.1 else fb

/-- The screen with every pixel 0 (R221). -/
def Screen.blank : Screen := Vector.replicate 32 (Vector.replicate 64 false)

/-- A drawing under way: the framebuffer and the collision flag `hit` (R222). -/
abbrev Drawing := Screen × Bool

/-- Column `c` of a sprite byte: bit `7 - c` when bit 7 is the leftmost (R220). -/
def spriteBit (msbLeft : Bool) (b : Byte) (c : Nat) : Bool :=
  if msbLeft then b.getLsbD (7 - c) else b.getLsbD c

/-- One sprite pixel: XORed onto the grid, dropped outside it; a set pixel that becomes unset is a hit
(R222). -/
def drawPixel (py px : Nat) (bit : Bool) (d : Drawing) : Drawing :=
  if bit && decide (px ≤ 63) && decide (py ≤ 31) then
    (d.1.setPixel py px (!d.1.pixel py px), d.2 || d.1.pixel py px)
  else d

/-- Columns `c, c + 1, …` of a sprite row, `k` of them (R222). -/
def drawCols (b : Byte) (py x0 : Nat) : Nat → Nat → Drawing → Drawing
  | _, 0, d => d
  | c, k + 1, d =>
    drawCols b py x0 (c + 1) k (drawPixel py (x0 + c) (spriteBit Config.spriteMsbLeft b c) d)

/-- The rows of a sprite, downwards from row `py` (R220, R222). -/
def drawRows (x0 : Nat) : List Byte → Nat → Drawing → Drawing
  | [], _, d => d
  | b :: bs, py, d => drawRows x0 bs (py + 1) (drawCols b py x0 0 8 d)

/-- A new framebuffer, the redraw flag set with it (R226). -/
def State.setScreen (s : State) (fb : Screen) : State := { s with fb := fb, rf := true }

/-! ## The timer engine (60_exceptions.md) -/

/-- One decrement, never below zero (R271, R276). -/
def countDown (b : Byte) : Byte := if b = 0 then 0 else b - 1

/-- `TimerTick` (R271, R274). -/
def timerTick (s : State) : State :=
  { s with dt := countDown s.dt, st := countDown s.st, audioTick := decide (s.st = 1) }

/-- The timer phase of a cycle that did not fault (R272, R273). -/
def timerPhase (s : State) : State :=
  if s.tick then timerTick s else { s with audioTick := false }

/-! ## The host's operations (60_exceptions.md R280 to R283) -/

/-- `SetKeys(k)` (R280). -/
def State.setKeys (s : State) (k : Keys) : State := { s with keys := k }

/-- `ClearRedraw()` (R281). -/
def State.clearRedraw (s : State) : State := { s with rf := false }

/-- `ReadDisplay()`: the pixels and RF; nothing changes (R282). -/
def State.readDisplay (s : State) : Screen × Bool := (s.fb, s.rf)

/-- One host operation. -/
def HostOp.apply : HostOp → State → State
  | .setKeys k, s => s.setKeys k
  | .clearRedraw, s => s.clearRedraw

/-- Host operations in the order the host performs them. -/
def applyOps : List HostOp → State → State
  | [], s => s
  | o :: os, s => applyOps os (o.apply s)

/-- The start of a cycle with the inputs `rnd` and `tick` (R5, R306). -/
def beginCycle (rnd : Option Byte) (tick : Bool) (s : State) : State :=
  { s with rnd := rnd, tick := tick, cycles := s.cycles + 1 }

/-- What the host does before a cycle, and the cycle's inputs: the next entry of the script, or no
operation, an unnamed random byte and the default `tick` (R5, R7, R283). -/
def hostPhase (s : State) : State :=
  match s.script with
  | [] => beginCycle none Config.tickDefault s
  | c :: cs => beginCycle c.rnd c.tick (applyOps c.ops { s with script := cs })

/-! ## Instruction fetch (R63, R65, R73) -/

/-- The instruction word at PC, big-endian, at an odd PC as at an even one; `AddressOutOfRange(PC + 1)`
when PC > 4094. -/
def fetch (s : State) : Except Fault Word :=
  if s.pc.toNat + 1 > 4095 then .error (.addressOutOfRange (s.pc.toNat + 1))
  else .ok (wordOfBytes (s.byteAt s.pc.toNat) (s.byteAt (s.pc.toNat + 1)))

end Sys2Proof.Machine
end

