-- ==== Sys2Proof/Machine/Operands.lean ====
section
/-!
DEFINITION. The operand forms of the instructions: immediates (30_encoding.md R93), the key an
instruction names or waits for (44_keypad_timer_instr.md), the random byte (41_alu.md R173), the
effective address through I (42_index_memory.md R206), the position and bytes of a sprite and the
decimal digits of a register.
-/

namespace Sys2Proof.Machine

/-- `zext_16(v)` (R10, R93). -/
def zext16 {n : Nat} (b : BitVec n) : Word := b.setWidth 16

/-- The base address of a data access: I as an unsigned number (R206). -/
def State.base (s : State) : Nat := s.i.toNat

/-- The input `rnd` of the cycle: the host's byte, else the free value of this cycle (R173, D12). -/
def State.rndByte (s : State) : Byte := s.rnd.getD (Config.freeRnd s.cycles)

/-- `KEYS[k]` for the key number in a register, and what happens when no key has that number
(R240, R241, D8). -/
def keyState (m : KeyIndexMode) (k : Byte) (keys : Keys) : Except Fault Bool :=
  if h : k.toNat < 16 then .ok keys[k.toNat]
  else
    match m with
    | .fault => .error (.keyIndexOutOfRange k)
    | .mask => .ok (keys[k.toNat % 16])
    | .notPressed => .ok false

/-- The pressed keys, least index first. -/
def pressedKeys (keys : Keys) : List Reg := (List.finRange 16).filter (fun k => keys[k.val])

/-- The key LD Vx,K reports, none when no key is pressed (R243, D9). -/
def selectKey (m : KeySelect) (choice : Nat) (keys : Keys) : Option Reg :=
  match m with
  | .lowest => (pressedKeys keys).head?
  | .any => (pressedKeys keys)[choice % (pressedKeys keys).length]?

/-- A register index as a byte (R243: zero-extended). -/
def byteOfReg (k : Reg) : Byte := BitVec.ofNat 8 k.val

/-- The decimal digits of a byte: hundreds, tens, ones (R203). -/
def bcdDigits (b : Byte) : List Byte :=
  [BitVec.ofNat 8 (b.toNat / 100), BitVec.ofNat 8 (b.toNat / 10 % 10), BitVec.ofNat 8 (b.toNat % 10)]

/-- `V[0]` to `V[x]` as bytes in ascending order (R204). -/
def State.regsTo (s : State) (x : Reg) : List Byte := s.v.toList.take (x.val + 1)

/-- The start column of a sprite, `V[x] mod 64` (R222). -/
def State.spriteX (s : State) (x : Reg) : Nat := (s.reg x).toNat % 64

/-- The start row of a sprite, `V[y] mod 32` (R222). -/
def State.spriteY (s : State) (y : Reg) : Nat := (s.reg y).toNat % 32

/-- The framebuffer and the collision flag after a sprite of `n` rows at I is drawn (R222). -/
def State.drawn (s : State) (x y : Reg) (n : Nat) : Drawing :=
  drawRows (s.spriteX x) (s.bytesAt s.base n) (s.spriteY y) (s.fb, false)

end Sys2Proof.Machine
end

