-- ==== Sys2Proof/Machine/Flags.lean ====
section
/-!
DEFINITION. The values the flag register VF receives and the order in which flag and result are written
(10_state.md R23, 41_alu.md R160, R161).
-/

namespace Sys2Proof.Machine

/-- VF, the flag register (R23). -/
def VF : Reg := 15

/-- A flag as the byte VF receives. -/
def flagByte (b : Bool) : Byte := if b then 1 else 0

/-- Carry of an addition: the widened sum exceeds 255 (R168). -/
def carry (a b : Byte) : Bool := decide (a.toNat + b.toNat > 255)

/-- No borrow in `a - b`: `a >= b` (R169, R170). -/
def noBorrow (a b : Byte) : Bool := decide (a.toNat ≥ b.toNat)

/-- The bit a right shift moves out, bit 0 (R171). -/
def shiftOutRight (a : Byte) : Bool := a.getLsbD 0

/-- The bit a left shift moves out, bit 7 (R172). -/
def shiftOutLeft (a : Byte) : Bool := a.getLsbD 7

/-- `(a + b) mod 256` from the widened sum (R160). -/
def addBytes (a b : Byte) : Byte := BitVec.ofNat 8 (a.toNat + b.toNat)

/-- `(a - b) mod 256` (R160). -/
def subBytes (a b : Byte) : Byte := BitVec.ofInt 8 ((a.toNat : Int) - (b.toNat : Int))

/-- Writing VF and V[x] of a flag-writing instruction and advancing PC (R161): the flag first and the
result second, so that with x = 15 the result stays; the other settings of `VF_ALIAS` beside it
(D10). -/
def writeFlagResult (m : VfAlias) (x : Reg) (flag : Bool) (result : Byte) (s : State) : Result :=
  match m with
  | .resultLast => .next ((s.setReg VF (flagByte flag)).setReg x result).advance
  | .flagLast => .next ((s.setReg x result).setReg VF (flagByte flag)).advance
  | .refuse =>
    if x = VF then .refused .vfDestination
    else .next ((s.setReg VF (flagByte flag)).setReg x result).advance

end Sys2Proof.Machine
end

