-- ==== Sys2Proof/Machine/Alu.lean ====
section
/-!
DEFINITION. The register load, arithmetic, logic, shift and random instructions (41_alu.md R160 to R173).
-/

namespace Sys2Proof.Machine

/-- LD Vx,nn (R162). -/
def execLdImm (x : Reg) (nn : Byte) (s : State) : Result := .next (s.setReg x nn).advance

/-- ADD Vx,nn (R163): no flag. -/
def execAddImm (x : Reg) (nn : Byte) (s : State) : Result :=
  .next (s.setReg x (addBytes (s.reg x) nn)).advance

/-- LD Vx,Vy (R164). -/
def execLdReg (x y : Reg) (s : State) : Result := .next (s.setReg x (s.reg y)).advance

/-- OR Vx,Vy (R165): VF untouched. -/
def execOrReg (x y : Reg) (s : State) : Result := .next (s.setReg x (s.reg x ||| s.reg y)).advance

/-- AND Vx,Vy (R166): VF untouched. -/
def execAndReg (x y : Reg) (s : State) : Result := .next (s.setReg x (s.reg x &&& s.reg y)).advance

/-- XOR Vx,Vy (R167): VF untouched. -/
def execXorReg (x y : Reg) (s : State) : Result := .next (s.setReg x (s.reg x ^^^ s.reg y)).advance

/-- ADD Vx,Vy (R168). -/
def execAddReg (x y : Reg) (s : State) : Result :=
  writeFlagResult Config.vfAlias x (carry (s.reg x) (s.reg y)) (addBytes (s.reg x) (s.reg y)) s

/-- SUB Vx,Vy (R169). -/
def execSubReg (x y : Reg) (s : State) : Result :=
  writeFlagResult Config.vfAlias x (noBorrow (s.reg x) (s.reg y)) (subBytes (s.reg x) (s.reg y)) s

/-- SUBN Vx,Vy (R170). -/
def execSubnReg (x y : Reg) (s : State) : Result :=
  writeFlagResult Config.vfAlias x (noBorrow (s.reg y) (s.reg x)) (subBytes (s.reg y) (s.reg x)) s

/-- SHR Vx (R171): V[x] itself is shifted, y is ignored. -/
def execShr (x _y : Reg) (s : State) : Result :=
  writeFlagResult Config.vfAlias x (shiftOutRight (s.reg x)) (s.reg x >>> 1) s

/-- SHL Vx (R172): V[x] itself is shifted, y is ignored. -/
def execShl (x _y : Reg) (s : State) : Result :=
  writeFlagResult Config.vfAlias x (shiftOutLeft (s.reg x)) (s.reg x <<< 1) s

/-- RND Vx,nn (R173). -/
def execRnd (x : Reg) (nn : Byte) (s : State) : Result := .next (s.setReg x (s.rndByte &&& nn)).advance

end Sys2Proof.Machine
end

