-- ==== Sys2Proof/Machine/Control.lean ====
section
/-!
DEFINITION. The control transfer instructions (40_control_flow.md R130 to R140).
-/

namespace Sys2Proof.Machine

/-- RET (R131). -/
def execRet (_z : Nibble) (s : State) : Result :=
  match s.pop with
  | none => raise (.stackUnderflow s.pc)
  | some (w, t) => .next (t.setPc (w + 2))

/-- JP nnn (R132). -/
def execJp (nnn : Addr) (s : State) : Result := .next (s.setPc (zext16 nnn))

/-- CALL nnn (R133): the address pushed is that of the CALL itself. -/
def execCall (nnn : Addr) (s : State) : Result :=
  match s.push s.pc with
  | none => raise (.stackOverflow s.pc)
  | some t => .next (t.setPc (zext16 nnn))

/-- SE Vx,nn (R134). -/
def execSeImm (x : Reg) (nn : Byte) (s : State) : Result := .next (s.skipIf (s.reg x == nn))

/-- SNE Vx,nn (R135). -/
def execSneImm (x : Reg) (nn : Byte) (s : State) : Result := .next (s.skipIf (s.reg x != nn))

/-- SE Vx,Vy (R136). -/
def execSeReg (x y : Reg) (_n : Nibble) (s : State) : Result := .next (s.skipIf (s.reg x == s.reg y))

/-- SNE Vx,Vy (R137). -/
def execSneReg (x y : Reg) (_n : Nibble) (s : State) : Result := .next (s.skipIf (s.reg x != s.reg y))

/-- JP V0,nnn (R138): not wrapped to 12 bits. -/
def execJpV0 (nnn : Addr) (s : State) : Result := .next (s.setPc (zext16 (s.reg 0) + zext16 nnn))

end Sys2Proof.Machine
end

