-- ==== Sys2Proof/Machine/Display.lean ====
section
/-!
DEFINITION. The display instructions (43_display.md R220 to R226).
-/

namespace Sys2Proof.Machine

/-- CLS (R221): RF is set even when the screen was blank. -/
def execCls (_z : Nibble) (s : State) : Result := .next (s.setScreen Screen.blank).advance

/-- DRW Vx,Vy,n (R222): all n bytes are range-checked, clipped rows included; n = 0 reads nothing. -/
def execDrw (x y : Reg) (n : Nibble) (s : State) : Result :=
  withRange s.base n.toNat
    (.next ((s.setScreen (s.drawn x y n.toNat).1).setReg VF (flagByte (s.drawn x y n.toNat).2)).advance)

end Sys2Proof.Machine
end

