-- ==== Sys2Proof/Machine/Index.lean ====
section
/-!
DEFINITION. The index register and memory instructions (42_index_memory.md R200 to R206).
-/

namespace Sys2Proof.Machine

/-- LD I,nnn (R200). -/
def execLdI (nnn : Addr) (s : State) : Result := .next (s.setI (zext16 nnn)).advance

/-- ADD I,Vx (R201): modulo 65536, no flag. -/
def execAddIVx (x : Reg) (s : State) : Result := .next (s.setI (s.i + zext16 (s.reg x))).advance

/-- LD F,Vx (R202): `5 * V[x]`, V[x] not masked. -/
def execLdF (x : Reg) (s : State) : Result :=
  .next (s.setI (BitVec.ofNat 16 (5 * (s.reg x).toNat))).advance

/-- LD B,Vx (R203). -/
def execLdB (x : Reg) (s : State) : Result :=
  withRange s.base 3 (.next (s.storeBytes s.base (bcdDigits (s.reg x))).advance)

/-- LD [I],Vx (R204): I is unchanged. -/
def execStoreRegs (x : Reg) (s : State) : Result :=
  withRange s.base (x.val + 1) (.next (s.storeBytes s.base (s.regsTo x)).advance)

/-- LD Vx,[I] (R205): I is unchanged. -/
def execLoadRegs (x : Reg) (s : State) : Result :=
  withRange s.base (x.val + 1) (.next (s.loadV (s.bytesAt s.base (x.val + 1))).advance)

end Sys2Proof.Machine
end

