-- ==== Sys2Proof/Machine/Keypad.lean ====
section
/-!
DEFINITION. The keypad and timer instructions (44_keypad_timer_instr.md R240 to R247).
-/

namespace Sys2Proof.Machine

/-- SKP Vx (R240). -/
def execSkp (x : Reg) (s : State) : Result :=
  match keyState Config.keyIndexMode (s.reg x) s.keys with
  | .error f => raise f
  | .ok down => .next (s.skipIf down)

/-- SKNP Vx (R241). -/
def execSknp (x : Reg) (s : State) : Result :=
  match keyState Config.keyIndexMode (s.reg x) s.keys with
  | .error f => raise f
  | .ok down => .next (s.skipIf (!down))

/-- LD Vx,DT (R242). -/
def execLdVxDt (x : Reg) (s : State) : Result := .next (s.setReg x s.dt).advance

/-- LD Vx,K (R243, R246): with no key pressed nothing changes and PC does not advance. -/
def execLdVxK (x : Reg) (s : State) : Result :=
  match selectKey Config.keySelect (Config.freeKeyChoice s.cycles) s.keys with
  | none => .next s
  | some k => .next (s.setReg x (byteOfReg k)).advance

/-- LD DT,Vx (R244). -/
def execLdDtVx (x : Reg) (s : State) : Result := .next (s.setDt (s.reg x)).advance

/-- LD ST,Vx (R245). -/
def execLdStVx (x : Reg) (s : State) : Result := .next (s.setSt (s.reg x)).advance

end Sys2Proof.Machine
end

