-- ==== Sys2Proof/Machine/Cycle.lean ====
section
/-!
DEFINITION. The one operation that executes instructions, `Cycle(rnd, tick)` (70_reset_and_hazards.md
R306), with its result (60_exceptions.md R263), and the reset `Construct(font, program)` (R300 to R304).
-/

namespace Sys2Proof.Machine

/-- Stage 4 of a cycle: the timer phase follows an instruction that did not fault (R272, R306). -/
def thenTimers : Result → Result
  | .next t => .next (timerPhase t)
  | .fault f => .fault f
  | .refused r => .refused r

/-- The stages of a cycle whose inputs the state holds: fetch, decode, execute, timers (R306). -/
def cycleBody (s : State) : Result :=
  match fetch s with
  | .error f => raise f
  | .ok w =>
    match decodeWord Config.decodeStrict w with
    | .error _ => raise (.decodeFailure w)
    | .ok i => thenTimers (exec i s)

/-- What `Cycle` returns (R263). -/
inductive CycleResult where
  | completed (audioTick : Bool)  -- fault code 0
  | faulted (f : Fault)           -- the fault's code and info; audio_tick is 0
  | refused (r : Refusal)         -- the model gives no meaning; never with the default parameters
  deriving DecidableEq, Repr

/-- The fault code of a result, 0 when the cycle completed (R260, R263). -/
def CycleResult.code : CycleResult → Nat
  | .completed _ => 0
  | .faulted f => f.code
  | .refused _ => 0

/-- The output `audio_tick` of a result (R263). -/
def CycleResult.audio : CycleResult → Bool
  | .completed a => a
  | .faulted _ => false
  | .refused _ => false

/-- `Cycle(rnd, tick)` as the host calls it: the state after it and what it returns; a fault leaves
every state element as it was (R262, R306). -/
def cycle (rnd : Byte) (tick : Bool) (s : State) : State × CycleResult :=
  match cycleBody (beginCycle (some rnd) tick s) with
  | .next t => (t, .completed t.audioTick)
  | .fault f => (s, .faulted f)
  | .refused r => (s, .refused r)

/-- Why `Construct` builds no machine (R302). -/
inductive ConstructError where
  /-- `ProgramTooLarge`: more than 3584 bytes. -/
  | programTooLarge (len : Nat)
  /-- A font that is not 80 bytes long is outside the contract and refused (D28). -/
  | fontLength (len : Nat)
  deriving DecidableEq, Repr

/-- `Construct(font, program)` (R300, R301, R302). -/
def construct (font program : List Byte) : Except ConstructError State :=
  if program.length > 3584 then .error (.programTooLarge program.length)
  else if font.length ≠ 80 then .error (.fontLength font.length)
  else .ok { State.reset with mem := (Memory.writeBytes [] 0 font).writeBytes 512 program }

/-- The address where the next instruction is fetched once a word is placed there: PC, or the program
base where no word fits at PC (log entry 11). -/
def fetchAddr (s : State) : Word := if s.pc.toNat + 1 > 4095 then 512 else s.pc

/-- A word placed where the next instruction is fetched. -/
def State.placeWord (s : State) (w : Word) : State :=
  { s with pc := fetchAddr s, mem := s.mem.writeBytes (fetchAddr s).toNat (bytesOfWord w) }

end Sys2Proof.Machine
end

