-- ==== Sys2Proof/Machine/Step.lean ====
section
/-!
DEFINITION. The step of the machine: what the host does before a cycle, then the cycle
(00_scope.md R5, 70_reset_and_hazards.md R306).
-/

namespace Sys2Proof.Machine

/-- One step: the host's operations and inputs for the coming cycle, then one cycle. -/
def step (s : State) : Host.Outcome State Fault Refusal := cycleBody (hostPhase s)

/-- `s` with the instruction whose bits are `w` placed where `step` fetches its next instruction. -/
def State.withFetchWord (s : State) (nbits w : Nat) : State := s.placeWord (tableWord nbits w)

end Sys2Proof.Machine
end

