-- ==== Sys2Proof/Safety.lean ====
section
/-!
DEFINITION. What claims about a safe machine are stated in: the invariant of 10_state.md R25, R26, R36,
the end of a run (60_exceptions.md R285) and the words in which frames are said.
-/

namespace Sys2Proof.Machine

/-- Every live stack slot holds the address of a CALL that was fetched, so at most 4094 (R36). -/
def State.stackLive (s : State) : Prop := ∀ k : Fin 16, k.val < s.sp.val → s.stack[k.val].toNat ≤ 4094

/-- The invariant of the machine: memory in canonical form, live stack slots at most 4094 (R36), and PC
at most 0x10FE, the highest target any instruction computes (R25, R140). -/
structure State.Inv (s : State) : Prop where
  memWf : s.mem.wf = true
  stackLive : s.stackLive
  pcBound : s.pc.toNat ≤ 0x10FE

/-- A program has finished: PC holds the address of a `JP` to that same address (R101, R285). -/
def State.Finished (s : State) : Prop :=
  ∃ w, fetch s = .ok w ∧ decodeWord Config.decodeStrict w = .ok (.jp (s.pc.setWidth 12))

/-- Every general register outside a list reads as before. -/
def SameRegsBut (ks : List Reg) (s t : State) : Prop := ∀ k, k ∉ ks → t.reg k = s.reg k

/-- Every byte of memory outside the `n` bytes at `a` reads as before. -/
def SameMemBut (a n : Nat) (s t : State) : Prop := ∀ b, (b < a ∨ a + n ≤ b) → t.byteAt b = s.byteAt b

/-- Every byte of memory reads as before. -/
def SameMem (s t : State) : Prop := ∀ b, t.byteAt b = s.byteAt b

/-- The call stack and its pointer are as before. -/
def SameStack (s t : State) : Prop := t.stack = s.stack ∧ t.sp = s.sp

/-- The timers are as before. -/
def SameTimers (s t : State) : Prop := t.dt = s.dt ∧ t.st = s.st

/-- The framebuffer and the redraw flag are as before. -/
def SameDisplay (s t : State) : Prop := t.fb = s.fb ∧ t.rf = s.rf

/-- The host's side is as before: KEYS, and the model's own fields. -/
def SameHost (s t : State) : Prop :=
  t.keys = s.keys ∧ t.script = s.script ∧ t.rnd = s.rnd ∧ t.tick = s.tick ∧ t.cycles = s.cycles ∧
    t.audioTick = s.audioTick

/-- Everything but the general registers and PC is as before: what an instruction that works on
registers leaves alone. -/
def SameButRegs (s t : State) : Prop :=
  SameMem s t ∧ t.i = s.i ∧ SameStack s t ∧ SameTimers s t ∧ SameDisplay s t ∧ SameHost s t

/-! ## Words and decoding -/

/-- The word with class `op` whose low 12 bits are the number `low`: `op` and `low` as the opcode map
prints them, `0x1000 * op + low` (R91, R96). -/
def hexWord (op low : Nat) : Word := BitVec.ofNat 16 (0x1000 * op + low)

/-- The word with class `op`, register `x` and low byte `nn`. -/
def hexXK (op : Nat) (x : Reg) (nn : Nat) : Word := hexWord op (0x100 * x.val + nn)

/-- The word with class `op`, registers `x` and `y` and low nibble `n`. -/
def hexXYN (op : Nat) (x y : Reg) (n : Nat) : Word := hexXK op x (0x10 * y.val + n)

/-- The machine's decoder reads the instruction `i` from the word `w`. -/
def Decodes (w : Word) (i : Instr) : Prop := decodeWord Config.decodeStrict w = .ok i

/-! ## Sprites -/

/-- A sprite of `n` rows at I, drawn at `(V[x] mod 64, V[y] mod 32)`, has a 1 bit, row `r` and column
`c` of it, that lands on pixel `(px, py)` of the grid (R220, R222, R224). -/
def State.spriteLit (s : State) (x y : Reg) (n py px : Nat) : Prop :=
  ∃ r c, r < n ∧ c < 8 ∧ py = (s.reg y).toNat % 32 + r ∧ px = (s.reg x).toNat % 64 + c ∧
    py ≤ 31 ∧ px ≤ 63 ∧ (s.byteAt (s.i.toNat + r)).getLsbD (7 - c) = true

/-! ## What an instruction may write -/

/-- The general registers an instruction may write: its destination, and VF for the six instructions
that write it implicitly (R22, R23, R32). -/
def mayWriteReg : Instr → Reg → Bool
  | .ldImm x _, k | .addImm x _, k | .ldReg x _, k | .orReg x _, k | .andReg x _, k
  | .xorReg x _, k | .rnd x _, k | .ldVxDt x, k | .ldVxK x, k => k == x
  | .addReg x _, k | .subReg x _, k | .shr x _, k | .subnReg x _, k | .shl x _, k => k == x || k == VF
  | .drw _ _ _, k => k == VF
  | .loadRegs x, k => decide (k ≤ x)
  | .cls _, _ | .ret _, _ | .jp _, _ | .call _, _ | .seImm _ _, _ | .sneImm _ _, _
  | .seReg _ _ _, _ | .sneReg _ _ _, _ | .ldI _, _ | .jpV0 _, _ | .skp _, _ | .sknp _, _
  | .ldDtVx _, _ | .ldStVx _, _ | .addIVx _, _ | .ldF _, _ | .ldB _, _ | .storeRegs _, _ => false

end Sys2Proof.Machine
end

