-- ==== Sys2Proof/Certificates/Slice0/Obligations.lean ====
section
/-!
DEFINITION. The statements for the provers: one Prop each, from the numbered rules of spec/. A docstring
names the rules and, where a clause rests on a decision the spec marks as its own (92_eei_decisions.md
D<n>) or on a log entry, that decision or entry.
-/

open Sys2Proof Sys2Proof.Machine

/-! ## Control transfer (40_control_flow.md) -/

/-- RET (R131; selector 0xEE is general knowledge, G1). With the stack empty it raises StackUnderflow;
otherwise PC is the most recent pushed word plus 2, the popped slot keeps its bits, and nothing else
changes. With live slots at most 4094 (R36) the new PC is at most 4096 and does not wrap. The
selector and the ignored nibble are log entry 9 (G1, D3), the slot that keeps its bits log entry 17
(D20), the information of the fault log entry 14 (D6). -/
def Obligations.ReturnPopsTheCallSite : Prop :=
  ∀ (z : Nibble) (s : State),
    Decodes (hexWord 0x0 (0x100 * z.toNat + 0xEE)) (.ret z) ∧
    (s.sp = 0 → exec (.ret z) s = .fault (.stackUnderflow s.pc)) ∧
    (∀ k : Fin 16, s.sp.val = k.val + 1 →
      ∃ t, exec (.ret z) s = .next t ∧ t.pc = s.stack[k.val] + 2 ∧ t.sp.val = k.val ∧
        t.stack = s.stack ∧ SameRegsBut [] s t ∧ SameMem s t ∧ t.i = s.i ∧ SameTimers s t ∧
        SameDisplay s t ∧ SameHost s t ∧
        (s.stackLive → t.pc.toNat = s.stack[k.val].toNat + 2 ∧ t.pc.toNat ≤ 4096))

/-- JP nnn (R132): PC becomes the address and nothing else changes; a jump to the instruction's own
address changes nothing at all; a jump to 0xFFF makes the next fetch fault. Class number 1 is presumed
(R96 ground C, log entry 9); that the fetch above 4094 faults is the spec's own choice (R63, D7, log
entry 14). -/
def Obligations.JumpSetsPc : Prop :=
  ∀ (nnn : Addr) (s : State),
    Decodes (hexWord 0x1 nnn.toNat) (.jp nnn) ∧
    ∃ t, exec (.jp nnn) s = .next t ∧ t.pc.toNat = nnn.toNat ∧ SameRegsBut [] s t ∧
      SameButRegs s t ∧ (s.pc.toNat = nnn.toNat → t = s) ∧
      (nnn.toNat = 0xFFF → fetch t = .error (.addressOutOfRange 0x1000))

/-- CALL nnn (R133): with 16 live slots it raises StackOverflow; otherwise it pushes its own address and
jumps. The call from depth 15 succeeds. Class number 2 is presumed (R96 ground C, log entry 9). The
information of the fault is log entry 14 (D6). -/
def Obligations.CallPushesItsOwnAddress : Prop :=
  ∀ (nnn : Addr) (s : State),
    Decodes (hexWord 0x2 nnn.toNat) (.call nnn) ∧
    (s.sp = 16 → exec (.call nnn) s = .fault (.stackOverflow s.pc)) ∧
    (∀ k : Fin 16, s.sp.val = k.val →
      ∃ t, exec (.call nnn) s = .next t ∧ t.pc.toNat = nnn.toNat ∧ t.sp.val = k.val + 1 ∧
        t.stack[k.val] = s.pc ∧ (∀ j : Fin 16, j ≠ k → t.stack[j.val] = s.stack[j.val]) ∧
        SameRegsBut [] s t ∧ SameMem s t ∧ t.i = s.i ∧ SameTimers s t ∧ SameDisplay s t ∧
        SameHost s t)

/-- SE Vx,nn and SNE Vx,nn (R134, R135): PC advances by 4 when the condition holds and by 2 otherwise;
nothing else changes. Class numbers 3 and 4 are presumed (R96 ground C, D2, log entry 9). -/
def Obligations.SkipOnImmediate : Prop :=
  ∀ (x : Reg) (nn : Byte) (s : State),
    Decodes (hexXK 0x3 x nn.toNat) (.seImm x nn) ∧ Decodes (hexXK 0x4 x nn.toNat) (.sneImm x nn) ∧
    (∃ t, exec (.seImm x nn) s = .next t ∧ t.pc = (if s.reg x = nn then s.pc + 4 else s.pc + 2) ∧
      SameRegsBut [] s t ∧ SameButRegs s t) ∧
    (∃ t, exec (.sneImm x nn) s = .next t ∧ t.pc = (if s.reg x = nn then s.pc + 2 else s.pc + 4) ∧
      SameRegsBut [] s t ∧ SameButRegs s t)

/-- SE Vx,Vy and SNE Vx,Vy (R136, R137). With the default `DECODE_STRICT` (D3) the low nibble is
ignored; with the strict setting a word whose low nibble is not zero is rejected. Class number 5 is
presumed (R96 ground C, log entry 9). The ignored nibble is log entry 9 (D3). -/
def Obligations.SkipOnRegisters : Prop :=
  ∀ (x y : Reg) (n : Nibble) (s : State),
    Decodes (hexXYN 0x5 x y n.toNat) (.seReg x y n) ∧
    Decodes (hexXYN 0x9 x y n.toNat) (.sneReg x y n) ∧
    (n ≠ 0 → decodeWord true (hexXYN 0x5 x y n.toNat) = .error (.ignoredBits (hexXYN 0x5 x y n.toNat)) ∧
      decodeWord true (hexXYN 0x9 x y n.toNat) = .error (.ignoredBits (hexXYN 0x9 x y n.toNat))) ∧
    (∃ t, exec (.seReg x y n) s = .next t ∧
      t.pc = (if s.reg x = s.reg y then s.pc + 4 else s.pc + 2) ∧
      (x = y → t.pc = s.pc + 4) ∧ SameRegsBut [] s t ∧ SameButRegs s t) ∧
    (∃ t, exec (.sneReg x y n) s = .next t ∧
      t.pc = (if s.reg x = s.reg y then s.pc + 2 else s.pc + 4) ∧
      (x = y → t.pc = s.pc + 2) ∧ SameRegsBut [] s t ∧ SameButRegs s t)

/-- JP V0,nnn (R138): PC becomes V0 plus the address, at most 0x10FE and not wrapped to 12 bits; a sum
above 4094 makes the next fetch fault. Class number B is presumed (R96 ground C, log entry 9); no wrap to
12 bits and the fault of the fetch are the spec's own choices (D18, D19, log entry 16; R63, D7, log entry
14). -/
def Obligations.JumpWithOffset : Prop :=
  ∀ (nnn : Addr) (s : State),
    Decodes (hexWord 0xB nnn.toNat) (.jpV0 nnn) ∧
    ∃ t, exec (.jpV0 nnn) s = .next t ∧ t.pc.toNat = (s.reg 0).toNat + nnn.toNat ∧
      t.pc.toNat ≤ 0x10FE ∧ SameRegsBut [] s t ∧ SameButRegs s t ∧
      (4094 < t.pc.toNat → fetch t = .error (.addressOutOfRange (t.pc.toNat + 1)))

/-! ## Register load, arithmetic, logic, shift, random (41_alu.md) -/

/-- LD Vx,nn and ADD Vx,nn (R162, R163): the register receives the byte, or the sum modulo 256; no flag
is written, so VF changes only when it is the destination. Class number 7 is presumed (R96 ground C, D2,
log entry 9). -/
def Obligations.LoadAndAddImmediate : Prop :=
  ∀ (x : Reg) (nn : Byte) (s : State),
    Decodes (hexXK 0x6 x nn.toNat) (.ldImm x nn) ∧ Decodes (hexXK 0x7 x nn.toNat) (.addImm x nn) ∧
    (∃ t, exec (.ldImm x nn) s = .next t ∧ t.reg x = nn ∧ t.pc = s.pc + 2 ∧ SameRegsBut [x] s t ∧
      SameButRegs s t) ∧
    (∃ t, exec (.addImm x nn) s = .next t ∧
      (t.reg x).toNat = ((s.reg x).toNat + nn.toNat) % 256 ∧ t.pc = s.pc + 2 ∧
      SameRegsBut [x] s t ∧ SameButRegs s t)

/-- LD Vx,Vy, OR, AND, XOR (R164 to R167; selectors 0 to 3 are general knowledge, G1): the bits of the
result, VF untouched unless it is the destination. The selectors are presumed (log entry 9). -/
def Obligations.MoveAndLogic : Prop :=
  ∀ (x y : Reg) (s : State),
    Decodes (hexXYN 0x8 x y 0x0) (.ldReg x y) ∧ Decodes (hexXYN 0x8 x y 0x1) (.orReg x y) ∧
    Decodes (hexXYN 0x8 x y 0x2) (.andReg x y) ∧ Decodes (hexXYN 0x8 x y 0x3) (.xorReg x y) ∧
    (∃ t, exec (.ldReg x y) s = .next t ∧ t.reg x = s.reg y ∧ t.pc = s.pc + 2 ∧
      SameRegsBut [x] s t ∧ SameButRegs s t) ∧
    (∃ t, exec (.orReg x y) s = .next t ∧
      (∀ j, (t.reg x).getLsbD j = ((s.reg x).getLsbD j || (s.reg y).getLsbD j)) ∧
      t.pc = s.pc + 2 ∧ SameRegsBut [x] s t ∧ SameButRegs s t) ∧
    (∃ t, exec (.andReg x y) s = .next t ∧
      (∀ j, (t.reg x).getLsbD j = ((s.reg x).getLsbD j && (s.reg y).getLsbD j)) ∧
      t.pc = s.pc + 2 ∧ SameRegsBut [x] s t ∧ SameButRegs s t) ∧
    (∃ t, exec (.xorReg x y) s = .next t ∧
      (∀ j, (t.reg x).getLsbD j = ((s.reg x).getLsbD j ^^ (s.reg y).getLsbD j)) ∧
      t.pc = s.pc + 2 ∧ SameRegsBut [x] s t ∧ SameButRegs s t)

/-- ADD Vx,Vy (R168): the sum modulo 256 and the carry. With destination VF the result stays and the
flag is lost: that clause is the spec's own choice (R161, D10). The result that stays in VF is log
entry 7 (D10). -/
def Obligations.AddRegistersSetsCarry : Prop :=
  ∀ (x y : Reg) (s : State),
    Decodes (hexXYN 0x8 x y 0x4) (.addReg x y) ∧
    ∃ t, exec (.addReg x y) s = .next t ∧
      (t.reg x).toNat = ((s.reg x).toNat + (s.reg y).toNat) % 256 ∧
      (x ≠ VF → t.reg VF = if (s.reg x).toNat + (s.reg y).toNat > 255 then 1 else 0) ∧
      t.pc = s.pc + 2 ∧ SameRegsBut [x, VF] s t ∧ SameButRegs s t

/-- SUB and SUBN (R169, R170; selectors general knowledge, G1): the difference modulo 256, and the flag
1 for no borrow, equality included. With destination VF the result stays (R161, D10). The selectors
are presumed (log entry 9); the result that stays in VF is log entry 7 (D10). -/
def Obligations.SubtractSetsNoBorrow : Prop :=
  ∀ (x y : Reg) (s : State),
    Decodes (hexXYN 0x8 x y 0x5) (.subReg x y) ∧ Decodes (hexXYN 0x8 x y 0x7) (.subnReg x y) ∧
    (∃ t, exec (.subReg x y) s = .next t ∧
      ((t.reg x).toNat : Int) = ((s.reg x).toNat - (s.reg y).toNat : Int) % 256 ∧
      (x ≠ VF → t.reg VF = if (s.reg y).toNat ≤ (s.reg x).toNat then 1 else 0) ∧
      t.pc = s.pc + 2 ∧ SameRegsBut [x, VF] s t ∧ SameButRegs s t) ∧
    (∃ t, exec (.subnReg x y) s = .next t ∧
      ((t.reg x).toNat : Int) = ((s.reg y).toNat - (s.reg x).toNat : Int) % 256 ∧
      (x ≠ VF → t.reg VF = if (s.reg x).toNat ≤ (s.reg y).toNat then 1 else 0) ∧
      t.pc = s.pc + 2 ∧ SameRegsBut [x, VF] s t ∧ SameButRegs s t)

/-- SHR and SHL (R171, R172; selectors general knowledge, G1): V[x] itself is shifted by one, whatever
the y field, and VF receives the bit shifted out. With destination VF the result stays (R161, D10).
The selectors are presumed (log entry 9); the result that stays in VF is log entry 7 (D10). -/
def Obligations.ShiftMovesOneBitToVf : Prop :=
  ∀ (x y : Reg) (s : State),
    Decodes (hexXYN 0x8 x y 0x6) (.shr x y) ∧ Decodes (hexXYN 0x8 x y 0xE) (.shl x y) ∧
    (∃ t, exec (.shr x y) s = .next t ∧ (t.reg x).toNat = (s.reg x).toNat / 2 ∧
      (x ≠ VF → (t.reg VF).toNat = (s.reg x).toNat % 2) ∧
      t.pc = s.pc + 2 ∧ SameRegsBut [x, VF] s t ∧ SameButRegs s t) ∧
    (∃ t, exec (.shl x y) s = .next t ∧ (t.reg x).toNat = 2 * (s.reg x).toNat % 256 ∧
      (x ≠ VF → (t.reg VF).toNat = (s.reg x).toNat / 128) ∧
      t.pc = s.pc + 2 ∧ SameRegsBut [x, VF] s t ∧ SameButRegs s t)

/-- RND Vx,nn (R173): the cycle's random byte AND nn. The byte is the host's where the host names it
(D12); where it names none it is a free value of which nothing is known (log entry 3), and still the
bits where nn has 0 are 0. Class number C is presumed (R96 ground C, log entry 9). The byte as the
cycle's own datum in the state is log entry 4. -/
def Obligations.RandomByteAndImmediate : Prop :=
  ∀ (x : Reg) (nn : Byte) (s : State),
    Decodes (hexXK 0xC x nn.toNat) (.rnd x nn) ∧
    ∃ t, exec (.rnd x nn) s = .next t ∧ (∀ b, s.rnd = some b → t.reg x = b &&& nn) ∧
      t.reg x = s.rndByte &&& nn ∧ (∀ j, nn.getLsbD j = false → (t.reg x).getLsbD j = false) ∧
      t.pc = s.pc + 2 ∧ SameRegsBut [x] s t ∧ SameButRegs s t

/-! ## Index register and memory (42_index_memory.md) -/

/-- LD I,nnn (R200): I receives the address, at most 0x0FFF; nothing else but PC changes. Class number A is
presumed (R96 ground C, D2, log entry 9). -/
def Obligations.LoadIndexImmediate : Prop :=
  ∀ (nnn : Addr) (s : State),
    Decodes (hexWord 0xA nnn.toNat) (.ldI nnn) ∧
    ∃ t, exec (.ldI nnn) s = .next t ∧ t.i.toNat = nnn.toNat ∧ t.i.toNat ≤ 0x0FFF ∧
      t.pc = s.pc + 2 ∧ SameRegsBut [] s t ∧ SameMem s t ∧ SameStack s t ∧ SameTimers s t ∧
      SameDisplay s t ∧ SameHost s t

/-- ADD I,Vx and LD F,Vx (R201, R202; selectors general knowledge, G1; wrap and no masking: D18): I
receives the sum modulo 65536, or five times the whole byte; VF is not written. The selectors are
presumed (log entry 9); wrap and no masking are log entry 16 (D18). -/
def Obligations.AddIndexAndFontAddress : Prop :=
  ∀ (x : Reg) (s : State),
    Decodes (hexXK 0xF x 0x1E) (.addIVx x) ∧ Decodes (hexXK 0xF x 0x29) (.ldF x) ∧
    (∃ t, exec (.addIVx x) s = .next t ∧ t.i.toNat = (s.i.toNat + (s.reg x).toNat) % 65536 ∧
      t.pc = s.pc + 2 ∧ SameRegsBut [] s t ∧ SameMem s t ∧ SameStack s t ∧ SameTimers s t ∧
      SameDisplay s t ∧ SameHost s t) ∧
    (∃ t, exec (.ldF x) s = .next t ∧ t.i.toNat = 5 * (s.reg x).toNat ∧ t.i.toNat ≤ 1275 ∧
      t.pc = s.pc + 2 ∧ SameRegsBut [] s t ∧ SameMem s t ∧ SameStack s t ∧ SameTimers s t ∧
      SameDisplay s t ∧ SameHost s t)

/-- LD B,Vx (R203, R206; selector general knowledge, G1; the check of the whole range: D21): the three
digits at I, I+1, I+2, each 0 to 9, recombining to the byte; every other byte of memory, I and the
registers as before; out of range, AddressOutOfRange(I+2). The selector is presumed (log entry 9);
the check of the whole range and the information of the fault are log entry 14 (D21, D6). -/
def Obligations.StoreDecimalDigits : Prop :=
  ∀ (x : Reg) (s : State), s.mem.wf = true →
    Decodes (hexXK 0xF x 0x33) (.ldB x) ∧
    (4093 < s.base → exec (.ldB x) s = .fault (.addressOutOfRange (s.base + 2))) ∧
    (s.base ≤ 4093 →
      ∃ t, exec (.ldB x) s = .next t ∧
        (t.byteAt s.base).toNat = (s.reg x).toNat / 100 ∧
        (t.byteAt (s.base + 1)).toNat = (s.reg x).toNat / 10 % 10 ∧
        (t.byteAt (s.base + 2)).toNat = (s.reg x).toNat % 10 ∧
        100 * (t.byteAt s.base).toNat + 10 * (t.byteAt (s.base + 1)).toNat +
          (t.byteAt (s.base + 2)).toNat = (s.reg x).toNat ∧
        SameMemBut s.base 3 s t ∧ t.mem.wf = true ∧ t.i = s.i ∧ t.pc = s.pc + 2 ∧
        SameRegsBut [] s t ∧ SameStack s t ∧ SameTimers s t ∧ SameDisplay s t ∧ SameHost s t)

/-- LD [I],Vx (R204, R206; selector general knowledge, G1; the check of the whole range: D21): V0 to Vx
at I to I+x, every other byte of memory, I and the registers as before; out of range,
AddressOutOfRange(I+x). The selector is presumed (log entry 9); the check of the whole range and the
information of the fault are log entry 14 (D21, D6). -/
def Obligations.DumpRegistersToMemory : Prop :=
  ∀ (x : Reg) (s : State), s.mem.wf = true →
    Decodes (hexXK 0xF x 0x55) (.storeRegs x) ∧
    (4095 < s.base + x.val →
      exec (.storeRegs x) s = .fault (.addressOutOfRange (s.base + x.val))) ∧
    (s.base + x.val ≤ 4095 →
      ∃ t, exec (.storeRegs x) s = .next t ∧
        (∀ k : Reg, k ≤ x → t.byteAt (s.base + k.val) = s.reg k) ∧
        SameMemBut s.base (x.val + 1) s t ∧ t.mem.wf = true ∧ t.i = s.i ∧ t.pc = s.pc + 2 ∧
        SameRegsBut [] s t ∧ SameStack s t ∧ SameTimers s t ∧ SameDisplay s t ∧ SameHost s t)

/-- LD Vx,[I] (R205, R206; selector general knowledge, G1; the check of the whole range: D21): V0 to Vx
from I to I+x, registers above x, I and memory as before; out of range, AddressOutOfRange(I+x) and
no register loaded. The selector is presumed (log entry 9); the check of the whole range and the
information of the fault are log entry 14 (D21, D6). -/
def Obligations.FillRegistersFromMemory : Prop :=
  ∀ (x : Reg) (s : State),
    Decodes (hexXK 0xF x 0x65) (.loadRegs x) ∧
    (4095 < s.base + x.val →
      exec (.loadRegs x) s = .fault (.addressOutOfRange (s.base + x.val))) ∧
    (s.base + x.val ≤ 4095 →
      ∃ t, exec (.loadRegs x) s = .next t ∧
        (∀ k : Reg, t.reg k = if k ≤ x then s.byteAt (s.base + k.val) else s.reg k) ∧
        t.pc = s.pc + 2 ∧ SameButRegs s t)

/-! ## Display (43_display.md) -/

/-- CLS (R221; selector 0xE0 is general knowledge, G1): every pixel 0 and RF 1, whatever they were; VF
and everything else but PC as before. RF set over a blank screen is D23 (log entry 17). The selector
and the ignored nibble are log entry 9 (G1, D3). -/
def Obligations.ClearScreenSetsRedraw : Prop :=
  ∀ (z : Nibble) (s : State),
    Decodes (hexWord 0x0 (0x100 * z.toNat + 0xE0)) (.cls z) ∧
    ∃ t, exec (.cls z) s = .next t ∧ (∀ y x, t.fb.pixel y x = false) ∧ t.rf = true ∧
      t.pc = s.pc + 2 ∧ SameRegsBut [] s t ∧ SameMem s t ∧ t.i = s.i ∧ SameStack s t ∧
      SameTimers s t ∧ SameHost s t

/-- DRW Vx,Vy,n (R220, R222; bit 7 leftmost: D16; n = 0 and the range check of clipped rows: D22): the
pixels the sprite's 1 bits land on are inverted, all others kept, VF is 1 exactly when one of them
was set, RF is 1; out of range, AddressOutOfRange(I+n-1). Class number D is presumed (R96 ground C,
log entry 9); RF set even when no pixel changes is D23 (log entry 17). Bit 7 leftmost is log entry
13 (D16, G3), n = 0 and the check of clipped rows log entry 17 (D22), the information of the fault
log entry 14 (D6). -/
def Obligations.DrawSpriteXorsPixels : Prop :=
  ∀ (x y : Reg) (n : Nibble) (s : State),
    Decodes (hexXYN 0xD x y n.toNat) (.drw x y n) ∧
    (n ≠ 0 → 4095 < s.base + n.toNat - 1 →
      exec (.drw x y n) s = .fault (.addressOutOfRange (s.base + n.toNat - 1))) ∧
    (n = 0 ∨ s.base + n.toNat - 1 ≤ 4095 →
      ∃ t, exec (.drw x y n) s = .next t ∧
        (∀ py px, s.spriteLit x y n.toNat py px → t.fb.pixel py px = !s.fb.pixel py px) ∧
        (∀ py px, ¬ s.spriteLit x y n.toNat py px → t.fb.pixel py px = s.fb.pixel py px) ∧
        ((∃ py px, s.spriteLit x y n.toNat py px ∧ s.fb.pixel py px = true) → t.reg VF = 1) ∧
        ((¬ ∃ py px, s.spriteLit x y n.toNat py px ∧ s.fb.pixel py px = true) → t.reg VF = 0) ∧
        t.rf = true ∧ t.pc = s.pc + 2 ∧ SameRegsBut [VF] s t ∧ SameMem s t ∧ t.i = s.i ∧
        SameStack s t ∧ SameTimers s t ∧ SameHost s t)

/-- The clipping law (R223, which the spec derives from R222): a pixel that a DRW changes lies between
the start position and the clipped far corner of the sprite, and nothing wraps to the opposite edge.
That the sprite bit of column c is bit 7 - c is presumed (R220, D16, G3, log entry 13). -/
def Obligations.DrawChangesOnlyTheClippedBox : Prop :=
  ∀ (x y : Reg) (n : Nibble) (s t : State) (py px : Nat),
    exec (.drw x y n) s = .next t → t.fb.pixel py px ≠ s.fb.pixel py px →
      (s.reg x).toNat % 64 ≤ px ∧ px ≤ min ((s.reg x).toNat % 64 + 7) 63 ∧
      (s.reg y).toNat % 32 ≤ py ∧ py < min ((s.reg y).toNat % 32 + n.toNat) 32 ∧
      (s.byteAt (s.i.toNat + (py - (s.reg y).toNat % 32))).getLsbD (7 - (px - (s.reg x).toNat % 64)) = true

/-- The collision law (R224, which the spec derives from R222; 90_conflicts.md C3): VF is 0 or 1 after a
DRW, 0 when no 1 bit of the sprite lands on the grid, and 0 when the sprite bytes are all zero. That
the sprite bit of column c is bit 7 - c is presumed (R220, D16, G3, log entry 13). -/
def Obligations.CollisionNeedsALitPixel : Prop :=
  ∀ (x y : Reg) (n : Nibble) (s t : State), exec (.drw x y n) s = .next t →
    (t.reg VF = 0 ∨ t.reg VF = 1) ∧
    (t.reg VF = 1 ↔ ∃ py px, s.spriteLit x y n.toNat py px ∧ s.fb.pixel py px = true) ∧
    ((¬ ∃ py px, s.spriteLit x y n.toNat py px) → t.reg VF = 0 ∧ t.fb = s.fb) ∧
    ((∀ r, r < n.toNat → s.byteAt (s.i.toNat + r) = 0) → t.reg VF = 0 ∧ t.fb = s.fb)

/-- The self-inverse law (R225): a second DRW of the same bytes at the same place, from any state that
still holds the first one's framebuffer, restores the framebuffer before the first; and its
collision flag is 1 exactly when a 1 bit of the sprite lands on a pixel that was unset before the
first draw (from R222; R224's shorter wording of that is log entry 12). That the sprite bit of
column c is bit 7 - c is presumed (R220, D16, G3, log entry 13). -/
def Obligations.DrawingTwiceRestoresTheScreen : Prop :=
  ∀ (x y : Reg) (n : Nibble) (s t u : State), exec (.drw x y n) s = .next t →
    u.fb = t.fb → u.i = s.i → (∀ r, r < n.toNat → u.byteAt (s.i.toNat + r) = s.byteAt (s.i.toNat + r)) →
    (u.reg x).toNat % 64 = (s.reg x).toNat % 64 → (u.reg y).toNat % 32 = (s.reg y).toNat % 32 →
      ∃ v, exec (.drw x y n) u = .next v ∧ v.fb = s.fb ∧
        (v.reg VF = 1 ↔ ∃ py px, s.spriteLit x y n.toNat py px ∧ s.fb.pixel py px = false)

/-- The redraw flag law (R226): every CLS and every DRW that does not fault sets RF; no other instruction
writes RF or the framebuffer, and no instruction clears RF. That RF is set even when no pixel changes is
the spec's own choice (D23, 90_conflicts.md C2, log entry 17). -/
def Obligations.OnlyClearAndDrawTouchTheDisplay : Prop :=
  ∀ (i : Instr) (s t : State), exec i s = .next t →
    ((∃ z, i = .cls z) ∨ (∃ x y n, i = .drw x y n) → t.rf = true) ∧
    ((¬ ∃ z, i = .cls z) → (¬ ∃ x y n, i = .drw x y n) → t.fb = s.fb ∧ t.rf = s.rf)

/-! ## Keypad and timers (44_keypad_timer_instr.md) -/

/-- SKP and SKNP (R240, R241; selectors general knowledge, G1): they skip on the key whose number is in
V[x]; above 15 they raise KeyIndexOutOfRange, the spec's own choice (D8). The selectors are presumed
(log entry 9); the fault above 15 is log entry 8 (D8), its information log entry 14 (D6). -/
def Obligations.SkipOnKey : Prop :=
  ∀ (x : Reg) (s : State),
    Decodes (hexXK 0xE x 0x9E) (.skp x) ∧ Decodes (hexXK 0xE x 0xA1) (.sknp x) ∧
    (15 < (s.reg x).toNat →
      exec (.skp x) s = .fault (.keyIndexOutOfRange (s.reg x)) ∧
      exec (.sknp x) s = .fault (.keyIndexOutOfRange (s.reg x))) ∧
    (∀ k : Fin 16, (s.reg x).toNat = k.val →
      (∃ t, exec (.skp x) s = .next t ∧ t.pc = (if s.keys[k.val] = true then s.pc + 4 else s.pc + 2) ∧
        SameRegsBut [] s t ∧ SameButRegs s t) ∧
      (∃ t, exec (.sknp x) s = .next t ∧ t.pc = (if s.keys[k.val] = true then s.pc + 2 else s.pc + 4) ∧
        SameRegsBut [] s t ∧ SameButRegs s t))

/-- LD Vx,DT, LD DT,Vx and LD ST,Vx (R242, R244, R245; selectors general knowledge, G1). The selectors
are presumed (log entry 9). -/
def Obligations.TimerLoads : Prop :=
  ∀ (x : Reg) (s : State),
    Decodes (hexXK 0xF x 0x07) (.ldVxDt x) ∧ Decodes (hexXK 0xF x 0x15) (.ldDtVx x) ∧
    Decodes (hexXK 0xF x 0x18) (.ldStVx x) ∧
    (∃ t, exec (.ldVxDt x) s = .next t ∧ t.reg x = s.dt ∧ t.pc = s.pc + 2 ∧ SameRegsBut [x] s t ∧
      SameButRegs s t) ∧
    (∃ t, exec (.ldDtVx x) s = .next t ∧ t.dt = s.reg x ∧ t.st = s.st ∧ t.pc = s.pc + 2 ∧
      SameRegsBut [] s t ∧ SameMem s t ∧ t.i = s.i ∧ SameStack s t ∧ SameDisplay s t ∧ SameHost s t) ∧
    (∃ t, exec (.ldStVx x) s = .next t ∧ t.st = s.reg x ∧ t.dt = s.dt ∧ t.pc = s.pc + 2 ∧
      SameRegsBut [] s t ∧ SameMem s t ∧ t.i = s.i ∧ SameStack s t ∧ SameDisplay s t ∧ SameHost s t)

/-- LD Vx,K (R243, R246; selector general knowledge, G1; the least index among several: D9): with no key
pressed nothing changes, PC included; otherwise V[x] receives the least pressed key and PC advances;
KEYS is not changed. The selector is presumed (log entry 9); the least key among several is log
entry 6 (D9). -/
def Obligations.WaitForKey : Prop :=
  ∀ (x : Reg) (s : State),
    Decodes (hexXK 0xF x 0x0A) (.ldVxK x) ∧
    ((∀ k : Fin 16, s.keys[k.val] = false) → exec (.ldVxK x) s = .next s) ∧
    (∀ k : Fin 16, s.keys[k.val] = true → (∀ j : Fin 16, j < k → s.keys[j.val] = false) →
      ∃ t, exec (.ldVxK x) s = .next t ∧ (t.reg x).toNat = k.val ∧ t.pc = s.pc + 2 ∧
        SameRegsBut [x] s t ∧ SameButRegs s t)

/-! ## All instructions -/

/-- What an instruction leaves alone (R23: the six implicit writers of VF are the only ones; R22, R32): a
register outside its destinations, and VF unless it is one of the six, is as before. -/
def Obligations.OnlyListedRegistersChange : Prop :=
  ∀ (i : Instr) (s t : State) (k : Reg), exec i s = .next t → mayWriteReg i k = false →
    t.reg k = s.reg k

/-- The "written by" column of the access matrix (R32) and of R21, for instructions: memory only by LD B
and LD [I], I only by LD I, ADD I and LD F, the stack only by CALL and RET, DT and ST only by their
loads, KEYS and the host's side by none. That RET leaves every stack slot as it was is the spec's
own choice (R26, R131, D20, log entry 17); the model's own fields are log entry 4. -/
def Obligations.AccessMatrixOfWrites : Prop :=
  ∀ (i : Instr) (s t : State), exec i s = .next t →
    ((∀ x, i ≠ .ldB x) → (∀ x, i ≠ .storeRegs x) → t.mem = s.mem) ∧
    ((∀ a, i ≠ .ldI a) → (∀ x, i ≠ .addIVx x) → (∀ x, i ≠ .ldF x) → t.i = s.i) ∧
    ((∀ a, i ≠ .call a) → t.stack = s.stack ∧ ((∀ z, i ≠ .ret z) → t.sp = s.sp)) ∧
    ((∀ x, i ≠ .ldDtVx x) → t.dt = s.dt) ∧ ((∀ x, i ≠ .ldStVx x) → t.st = s.st) ∧ SameHost s t

/-- Which instruction can raise what, and when (R261, which the spec derives): CALL StackOverflow, RET
StackUnderflow, the four memory instructions AddressOutOfRange, SKP and SKNP KeyIndexOutOfRange,
each exactly on its condition, and the other 26 nothing. The condition V[x] > 15 is the spec's own
choice (D8, log entry 8), as are n = 0 never faulting and the check of clipped rows (D22, log entry
17), and the information values and the check of the whole range (D6, D21, log entry 14). -/
def Obligations.FaultsAreExactlyTheListedOnes : Prop :=
  ∀ (i : Instr) (s : State) (f : Fault), exec i s = .fault f ↔
    ((∃ a, i = .call a) ∧ s.sp = 16 ∧ f = .stackOverflow s.pc) ∨
    ((∃ z, i = .ret z) ∧ s.sp = 0 ∧ f = .stackUnderflow s.pc) ∨
    (∃ x y n, i = .drw x y n ∧ n ≠ 0 ∧ 4095 < s.i.toNat + n.toNat - 1 ∧
      f = .addressOutOfRange (s.i.toNat + n.toNat - 1)) ∨
    (∃ x, i = .ldB x ∧ 4095 < s.i.toNat + 2 ∧ f = .addressOutOfRange (s.i.toNat + 2)) ∨
    (∃ x : Reg, (i = .storeRegs x ∨ i = .loadRegs x) ∧ 4095 < s.i.toNat + x.val ∧
      f = .addressOutOfRange (s.i.toNat + x.val)) ∨
    (∃ x, (i = .skp x ∨ i = .sknp x) ∧ 15 < (s.reg x).toNat ∧ f = .keyIndexOutOfRange (s.reg x))

/-- No instruction is refused: every instruction takes a next state or raises a fault of R260, and so
does every step (R98, R261). The default VF_ALIAS is log entry 7 (D10). -/
def Obligations.NothingIsRefused : Prop :=
  (∀ (i : Instr) (s : State) (r : Refusal), exec i s ≠ .refused r) ∧
  (∀ (s : State) (r : Refusal), step s ≠ .refused r)

/-- The cycle's random byte is read by RND alone (R173: "a cycle that executes any other instruction
ignores rnd"; R277: no cycle counter): another byte, and another number of cycles begun, leave every
other instruction's outcome as it was. The byte as an input of the cycle is D12 (log entry 3); the
fields that hold it and the count of cycles are the model's own (log entry 4). -/
def Obligations.OnlyRndReadsTheRandomByte : Prop :=
  ∀ (i : Instr) (s : State) (r : Option Byte) (c : Nat), (∀ x nn, i ≠ .rnd x nn) →
    (∀ t, exec i s = .next t →
      exec i { s with rnd := r, cycles := c } = .next { t with rnd := r, cycles := c }) ∧
    (∀ f, exec i s = .fault f → exec i { s with rnd := r, cycles := c } = .fault f)

/-! ## Encoding (30_encoding.md) -/

/-- The fields of an instruction word (R91): which bits each is, and how they overlap. -/
def Obligations.FieldsOfTheWord : Prop :=
  ∀ w : Word,
    (fieldOp w).toNat = w.toNat / 0x1000 ∧ (fieldX w).val = w.toNat / 0x100 % 16 ∧
    (fieldY w).val = w.toNat / 0x10 % 16 ∧ (fieldN w).toNat = w.toNat % 16 ∧
    (fieldNN w).toNat = w.toNat % 256 ∧ (fieldNNN w).toNat = w.toNat % 4096 ∧
    (fieldNN w).toNat = 16 * (fieldY w).val + (fieldN w).toNat ∧
    (fieldNNN w).toNat = 256 * (fieldX w).val + 16 * (fieldY w).val + (fieldN w).toNat ∧
    (∀ hi lo : Byte, wordOfBytes hi lo = w →
      (fieldOp w).toNat = hi.toNat / 16 ∧ (fieldX w).val = hi.toNat % 16 ∧
      (fieldY w).val = lo.toNat / 16 ∧ (fieldN w).toNat = lo.toNat % 16 ∧ fieldNN w = lo)

/-- Decode and encode agree: under both settings of `DECODE_STRICT`, every well-formed instruction, with
every operand at every value its encoding admits, decodes back from its own word (R96, R99). The
numbers and the settings of DECODE_STRICT are log entry 9 (D2, D3, G1). -/
def Obligations.DecodeOfEncodeIsTheInstruction : Prop :=
  ∀ (strict : Bool) (i : Instr), i.wellFormedWith strict = true → decodeWord strict (encode i) = .ok i

/-- The other direction: a word that decodes is the word its instruction encodes to, so that no two
words mean the same instruction with the same fields and no bit of a word is dropped. The numbers,
the settings of DECODE_STRICT and the ignored nibbles kept as fields are log entry 9 (D2, D3, G1). -/
def Obligations.EncodeOfDecodeIsTheWord : Prop :=
  ∀ (strict : Bool) (w : Word) (i : Instr), decodeWord strict w = .ok i →
    encode i = w ∧ i.wellFormedWith strict = true

/-- The two-level decoder and the masks of the opcode map agree (R96, R99; numbers: D2, G1): a word
decodes to an instruction only if it selects the instruction's row, no word selects two rows, and a
word that selects a row decodes to an instruction of that row. The numbers and the match keys are
log entry 9 (D2, D3, G1). -/
def Obligations.DecoderAgreesWithTheOpcodeMap : Prop :=
  (∀ (w : Word) (i : Instr), Decodes w i → selectsRow w i) ∧
  (∀ (w : Word) (i : Instr), selectsRow w i → ∃ j, Decodes w j ∧ opcodeRow j = opcodeRow i) ∧
  (∀ (w : Word) (i j : Instr), selectsRow w i → selectsRow w j → opcodeRow i = opcodeRow j)

/-- The words that fail to decode (R97; which words these are rests on D2, D3), and that such a word,
once fetched, makes the step raise DecodeFailure with it. The numbers and the match keys are log
entry 9 (D2, D3, G1), the information of the fault log entry 14 (D6). -/
def Obligations.FailingWordsRaiseDecodeFailure : Prop :=
  (∀ w : Word, (∃ e, decodeWord Config.decodeStrict w = .error e) ↔
    ((fieldOp w).toNat = 0x0 ∧ (fieldNN w).toNat ∉ [0xE0, 0xEE]) ∨
    ((fieldOp w).toNat = 0x8 ∧ (fieldN w).toNat ∈ [0x8, 0x9, 0xA, 0xB, 0xC, 0xD, 0xF]) ∨
    ((fieldOp w).toNat = 0xE ∧ (fieldNN w).toNat ∉ [0x9E, 0xA1]) ∨
    ((fieldOp w).toNat = 0xF ∧
      (fieldNN w).toNat ∉ [0x07, 0x0A, 0x15, 0x18, 0x1E, 0x29, 0x33, 0x55, 0x65])) ∧
  (∀ (s : State) (w : Word), fetch s = .ok w → (∃ e, decodeWord Config.decodeStrict w = .error e) →
    step s = .fault (.decodeFailure w))

/-- The strict setting (R95, D3): it rejects exactly the words of the default whose ignored bits are not
zero, and accepts the rest with the same meaning. The strict setting is log entry 9 (D3). -/
def Obligations.StrictDecodeWantsZeroIgnoredBits : Prop :=
  ∀ (w : Word) (i : Instr), decodeWord true w = .ok i ↔
    decodeWord false w = .ok i ∧
      ((fieldOp w).toNat = 0x0 → (nibbleX w).toNat = 0) ∧
      ((fieldOp w).toNat = 0x5 → (fieldN w).toNat = 0) ∧
      ((fieldOp w).toNat = 0x9 → (fieldN w).toNat = 0)

/-- The worked decodes (R102). The numbers of general knowledge and the strict case of 0x5AB7 are log
entry 9 (D2, D3, G1). -/
def Obligations.WorkedDecodes : Prop :=
  Decodes 0x6005 (.ldImm 0 0x05) ∧ Decodes 0x6103 (.ldImm 1 0x03) ∧ Decodes 0x8014 (.addReg 0 1) ∧
  Decodes 0x00E0 (.cls 0) ∧ Decodes 0x00EE (.ret 0) ∧
  decodeWord Config.decodeStrict 0x0000 = .error (.noPattern 0x0000) ∧ Decodes 0x1234 (.jp 0x234) ∧
  Decodes 0x5AB7 (.seReg 0xA 0xB 7) ∧ decodeWord true 0x5AB7 = .error (.ignoredBits 0x5AB7) ∧
  decodeWord Config.decodeStrict 0x8AB8 = .error (.noPattern 0x8AB8) ∧ Decodes 0xD125 (.drw 1 2 5) ∧
  Decodes 0xE19E (.skp 1) ∧ decodeWord Config.decodeStrict 0xE19F = .error (.noPattern 0xE19F) ∧
  Decodes 0xF50A (.ldVxK 5) ∧ decodeWord Config.decodeStrict 0xF000 = .error (.noPattern 0xF000) ∧
  Decodes 0xFF65 (.loadRegs 15)

/-! ## Fetch, cycle, step (20_memory.md, 70_reset_and_hazards.md) -/

/-- The fetch (R63, R65; the out-of-range case: D7; odd PC: D19): the two bytes at PC, the first the
more significant, at every PC up to 4094; above it AddressOutOfRange(PC + 1). The fault above 4094
is log entry 14 (D7), the odd PC log entry 16 (D19). -/
def Obligations.FetchIsBigEndian : Prop :=
  ∀ s : State,
    (s.pc.toNat ≤ 4094 → ∃ w, fetch s = .ok w ∧
      w.toNat = 256 * (s.byteAt s.pc.toNat).toNat + (s.byteAt (s.pc.toNat + 1)).toNat) ∧
    (4094 < s.pc.toNat → fetch s = .error (.addressOutOfRange (s.pc.toNat + 1)))

/-- A step runs the decoded instruction (R306, R307): when the word at PC decodes to `i`, the step is the
host's part, `exec i`, and the timer phase on the state it gives (R272); a fault of the instruction is the
step's, and the timers do not run (R262, D5, log entry 14). That a step begins with the host's part,
`hostPhase`, is the model's own choice: the host of R5 as a script the step reads (log entry 4). -/
def Obligations.StepRunsTheDecodedInstruction : Prop :=
  ∀ (s : State) (w : Word) (i : Instr), fetch s = .ok w → Decodes w i →
    (∀ u, exec i (hostPhase s) = .next u → step s = .next (timerPhase u)) ∧
    (∀ f, exec i (hostPhase s) = .fault f → step s = .fault f)

/-- `Cycle(rnd, tick)` (R306): fetch, decode, execute, timers, in this order, with the result `(fault,
audio_tick)` (R263); on a fault the state is the one before and audio_tick is 0. Faults that change
nothing and their form are log entry 14 (D5, D6), the input `tick` log entry 10 (D11), the fields
that hold the inputs and audio_tick log entry 4. -/
def Obligations.CycleIsFetchDecodeExecuteTimers : Prop :=
  ∀ (s : State) (r : Byte) (c : Bool),
    (∀ f, fetch s = .error f → cycle r c s = (s, .faulted f)) ∧
    (∀ w e, fetch s = .ok w → decodeWord Config.decodeStrict w = .error e →
      cycle r c s = (s, .faulted (.decodeFailure w))) ∧
    (∀ w i f, fetch s = .ok w → Decodes w i → exec i (beginCycle (some r) c s) = .fault f →
      cycle r c s = (s, .faulted f)) ∧
    (∀ w i u, fetch s = .ok w → Decodes w i → exec i (beginCycle (some r) c s) = .next u →
      cycle r c s = (if c then timerTick u else { u with audioTick := false },
        .completed (c && decide (u.st = 1))))

/-- A placed word is the one the next step fetches, at every PC (log entry 11): this is how a program
word is put in front of the machine. -/
def Obligations.PlacedWordIsFetched : Prop :=
  ∀ (s : State) (nbits w : Nat), s.mem.wf = true →
    fetch (s.withFetchWord nbits w) = .ok (BitVec.ofNat 16 (w % 2 ^ nbits)) ∧
    (s.pc.toNat ≤ 4094 → (s.withFetchWord nbits w).pc = s.pc ∧
      SameMemBut s.pc.toNat 2 s (s.withFetchWord nbits w))

/-- The timer tick (R271): each timer falls by one unless it is 0, neither reads the other, the audio tick
is raised exactly when ST was 1, and nothing else changes. -/
def Obligations.TimerTickCountsBothDown : Prop :=
  ∀ s : State,
    (0 < s.dt.toNat → (timerTick s).dt.toNat = s.dt.toNat - 1) ∧ (s.dt = 0 → (timerTick s).dt = 0) ∧
    (0 < s.st.toNat → (timerTick s).st.toNat = s.st.toNat - 1) ∧ (s.st = 0 → (timerTick s).st = 0) ∧
    ((timerTick s).audioTick = true ↔ s.st.toNat = 1) ∧
    timerTick s = { s with dt := (timerTick s).dt, st := (timerTick s).st, audioTick := (timerTick s).audioTick }

/-- The timers never go below zero and never wrap, and a timer loaded with v reaches 0 after exactly v
ticks (R276); a count of ST raises exactly one audio tick, at its end (R274). -/
def Obligations.TimersReachZeroAndStay : Prop :=
  ∀ (s : State) (k : Nat),
    (timerTick^[k] s).dt.toNat = s.dt.toNat - k ∧ (timerTick^[k] s).st.toNat = s.st.toNat - k ∧
    ((timerTick^[k] s).dt = 0 ↔ s.dt.toNat ≤ k) ∧ ((timerTick^[k] s).st = 0 ↔ s.st.toNat ≤ k) ∧
    ((timerTick^[k + 1] s).audioTick = true ↔ s.st.toNat = k + 1)

/-- The order of instruction and timer phase (R247, R311, which the spec derives): a completed cycle
with `tick = 1` ends with DT one below what it was, or one below the byte just loaded into it; with
`tick = 0` the count does not move (R273). The input `tick` is log entry 10 (D11). -/
def Obligations.DelayTimerFallsOncePerCycle : Prop :=
  ∀ (s t : State) (r : Byte) (c a : Bool) (w : Word) (i : Instr),
    cycle r c s = (t, .completed a) → fetch s = .ok w → Decodes w i →
      (∀ x, i = .ldDtVx x →
        t.dt.toNat = if c then (s.reg x).toNat - 1 else (s.reg x).toNat) ∧
      ((∀ x, i ≠ .ldDtVx x) → t.dt.toNat = if c then s.dt.toNat - 1 else s.dt.toNat) ∧
      (∀ x, i = .ldVxDt x → t.reg x = s.dt)

/-! ## Faults (60_exceptions.md) -/

/-- A fault changes nothing and a faulted machine stays faulted (R262, R264; D5): after a cycle that
faults the state is the one before, and whatever the host then does to KEYS and RF and whatever
inputs it gives, the next cycle raises the same fault and again changes nothing. Faults that change
nothing, their form and the check of the whole range are log entry 14 (D5, D6, D21). -/
def Obligations.FaultedMachineStaysFaulted : Prop :=
  ∀ (s : State) (r : Byte) (c : Bool) (f : Fault), (cycle r c s).2 = .faulted f →
    (cycle r c s).1 = s ∧
    ∀ (ops : List HostOp) (r' : Byte) (c' : Bool),
      cycle r' c' (applyOps ops s) = (applyOps ops s, .faulted f)

/-- The order of faults (R265, D5): a PC above 4094 gives the fetch's AddressOutOfRange whatever memory
holds; a word that does not decode gives DecodeFailure whatever the state; only then can the decoded
instruction fault. The order, the fault of a fetch above 4094 and the information values are log
entry 14 (D5, D6, D7). -/
def Obligations.FaultPriority : Prop :=
  ∀ s : State,
    (4094 < s.pc.toNat → step s = .fault (.addressOutOfRange (s.pc.toNat + 1))) ∧
    (∀ w e, fetch s = .ok w → decodeWord Config.decodeStrict w = .error e →
      step s = .fault (.decodeFailure w)) ∧
    (∀ f, step s = .fault f → s.pc.toNat ≤ 4094 → (∀ w, f ≠ .decodeFailure w) →
      ∃ w i, fetch s = .ok w ∧ Decodes w i ∧ exec i (hostPhase s) = .fault f)

/-! ## The host (00_scope.md R5, 60_exceptions.md R280 to R283) -/

/-- SetKeys, ClearRedraw and ReadDisplay (R280, R281, R282): the first writes KEYS and nothing else, the
second clears RF and nothing else, the third returns the pixels and RF and changes nothing. The
names of the operations are the spec's own (D1). -/
def Obligations.HostOperationsTouchKeysAndRedraw : Prop :=
  ∀ (s : State) (k : Keys),
    (∀ j : Fin 16, (s.setKeys k).keys[j.val] = k[j.val]) ∧ s.setKeys k = { s with keys := k } ∧
    s.clearRedraw.rf = false ∧ s.clearRedraw = { s with rf := false } ∧
    (∀ y x, s.readDisplay.1.pixel y x = s.fb.pixel y x) ∧ s.readDisplay.2 = s.rf

/-- What the host's script does before a cycle (R5, R283; the script is the model's own form of the
host, log entry 4): with no entry left KEYS and RF stay, the random byte is not named and `tick` is
1; an entry's operations are performed in order and its inputs become the cycle's. The program's
machine is untouched. The default `tick` is log entry 10 (D11), the host's limits log entry 15
(D30). -/
def Obligations.HostActsBeforeTheCycle : Prop :=
  ∀ s : State,
    (s.script = [] → hostPhase s = { s with rnd := none, tick := true, cycles := s.cycles + 1 }) ∧
    (∀ c cs, s.script = c :: cs →
      (hostPhase s).rnd = c.rnd ∧ (hostPhase s).tick = c.tick ∧ (hostPhase s).script = cs ∧
      (hostPhase s).keys = (applyOps c.ops s).keys ∧ (hostPhase s).rf = (applyOps c.ops s).rf) ∧
    (hostPhase s).mem = s.mem ∧ (hostPhase s).v = s.v ∧ (hostPhase s).i = s.i ∧
    (hostPhase s).pc = s.pc ∧ SameStack s (hostPhase s) ∧ SameTimers s (hostPhase s) ∧
    (hostPhase s).fb = s.fb

/-! ## Reset (70_reset_and_hazards.md) -/

/-- The reset state (R35, R303). PC = 512 and SP = 0 are the document's; every other value is the spec's
own choice (D13, D14), the font of zero bytes and the model's own fields are the model's (log
entries 1 and 4). The zeros are log entry 5. -/
def Obligations.ResetValues : Prop :=
  State.reset.pc.toNat = 512 ∧ State.reset.sp = 0 ∧ (∀ k, State.reset.reg k = 0) ∧ State.reset.i = 0 ∧
  State.reset.dt = 0 ∧ State.reset.st = 0 ∧ (∀ k : Fin 16, State.reset.stack[k.val] = 0) ∧
  (∀ k : Fin 16, State.reset.keys[k.val] = false) ∧ (∀ y x, State.reset.fb.pixel y x = false) ∧
  State.reset.rf = false ∧ (∀ a, State.reset.byteAt a = 0) ∧ State.reset.script = []

/-- Construct builds the memory image (R300, R301): the font at 0, the program verbatim at 512, every
other byte `MEM_FILL` (D14), PC 512, everything else as at reset; and the state it builds meets the
invariant. The zeros of the rest of the state and of uncovered memory are log entry 5 (D13, D14),
the required sizes log entry 15 (D28). -/
def Obligations.ConstructBuildsTheImage : Prop :=
  ∀ (font program : List Byte), font.length = 80 → program.length ≤ 3584 →
    ∃ s, construct font program = .ok s ∧
      (∀ a (h : a < font.length), s.byteAt a = font[a]) ∧
      (∀ j (h : j < program.length), s.byteAt (512 + j) = program[j]) ∧
      (∀ a, 80 ≤ a → (a < 512 ∨ 512 + program.length ≤ a) → s.byteAt a = Config.memFill) ∧
      s.pc.toNat = 512 ∧ s = { State.reset with mem := s.mem } ∧ s.Inv

/-- Construct's failures (R302): a program of more than 3584 bytes is ProgramTooLarge whatever the font;
a font that is not 80 bytes is refused (D28); there is no other failure. That the program's size is
checked first, so that a long program with a wrong font is ProgramTooLarge, is the model's own
choice, which R300 and R302 do not make (log entry 15). The refused font is log entry 15 (D28). -/
def Obligations.ConstructFailsOnlyOnSizes : Prop :=
  ∀ (font program : List Byte),
    (3584 < program.length → construct font program = .error (.programTooLarge program.length)) ∧
    (program.length ≤ 3584 → font.length ≠ 80 →
      construct font program = .error (.fontLength font.length)) ∧
    (∀ e, construct font program = .error e → 3584 < program.length ∨ font.length ≠ 80)

/-! ## Invariants and runs -/

/-- The reset state meets the invariant (R25, R36). The canonical form of memory is the model's own. -/
def Obligations.ResetMeetsTheInvariant : Prop := State.reset.Inv

/-- Every step keeps the invariant (R25, R36, which the spec derives): memory in canonical form, every
live stack slot at most 4094, PC at most 0x10FE, from every state that meets them. The bound on PC
rests on PC not wrapping to 12 bits and on the fault of a fetch above 4094 (log entries 16 and 14);
the canonical form of memory is the model's own. -/
def Obligations.StepKeepsTheInvariant : Prop :=
  ∀ s t : State, s.Inv → step s = .next t → t.Inv

/-- Self-modifying code (R73, D24): a register dump over the next instruction is what the next fetch
reads. D24 is log entry 17. -/
def Obligations.StoreIsSeenByTheNextFetch : Prop :=
  ∀ (x : Reg) (s : State), s.mem.wf = true → 1 ≤ x.val → s.base = s.pc.toNat + 2 →
    s.base + x.val ≤ 4095 →
      ∃ t, exec (.storeRegs x) s = .next t ∧ fetch t = .ok (wordOfBytes (s.reg 0) (s.reg 1))

/-- A subroutine returns to the instruction after its CALL (R139, which the spec derives from R131 and
R133): from any state that still has the stack the CALL left, RET gives the CALL's address plus 2, and
the live slots below are the caller's. -/
def Obligations.ReturnUndoesCall : Prop :=
  ∀ (nnn : Addr) (z : Nibble) (s : State), s.sp.val < 16 →
    ∃ t, exec (.call nnn) s = .next t ∧
      ∀ u : State, u.stack = t.stack → u.sp = t.sp →
        ∃ v, exec (.ret z) u = .next v ∧ v.pc = s.pc + 2 ∧ v.sp = s.sp ∧
          ∀ k : Fin 16, k.val < s.sp.val → v.stack[k.val] = s.stack[k.val]

/-- The end of a run (R101, R285, D27): once PC holds the address of a jump to itself, the machine runs
for ever without a fault, whatever the host's script does, and of the program's machine only DT and ST
change, and they only count down. The script is the model's own form of the host (log entry 4). The
clause on an empty script (each timer at its value less k, KEYS and RF kept) rests on it and on the
default `tick` = 1 of a cycle for which the host names none (R273, D11, log entry 10). -/
def Obligations.FinishedProgramOnlyCountsDown : Prop :=
  ∀ (s : State) (k : Nat), s.Finished →
    ∃ t : State, core.run k s = .next t ∧ t.Finished ∧ t.pc = s.pc ∧ t.mem = s.mem ∧ t.v = s.v ∧
      t.i = s.i ∧ SameStack s t ∧ t.fb = s.fb ∧ t.dt.toNat ≤ s.dt.toNat ∧ t.st.toNat ≤ s.st.toNat ∧
      (s.script = [] → t.dt.toNat = s.dt.toNat - k ∧ t.st.toNat = s.st.toNat - k ∧ t.keys = s.keys ∧
        t.rf = s.rf)

/-! ## Parameters (00_scope.md R7) -/

/-- The settings of the parameters that are not the defaults (R7: `VF_ALIAS`, `KEY_INDEX_MODE`,
`KEY_SELECT`; D8, D9, D10), each as the spec describes it. These are log entries 8 (D8), 6 (D9) and
7 (D10). -/
def Obligations.SettingsOfTheParameters : Prop :=
  (∀ (x : Reg) (flag : Bool) (r : Byte) (s : State),
    (∃ t, writeFlagResult .flagLast x flag r s = .next t ∧
      (t.reg VF).toNat = (if flag then 1 else 0) ∧ (x ≠ VF → t.reg x = r) ∧ t.pc = s.pc + 2 ∧
      SameRegsBut [x, VF] s t ∧ SameButRegs s t) ∧
    (x = VF → writeFlagResult .refuse x flag r s = .refused .vfDestination) ∧
    (x ≠ VF → writeFlagResult .refuse x flag r s = writeFlagResult .resultLast x flag r s)) ∧
  (∀ (k : Byte) (keys : Keys), 15 < k.toNat →
    keyState .mask k keys = .ok (keys[k.toNat % 16]) ∧ keyState .notPressed k keys = .ok false) ∧
  (∀ (c : Nat) (keys : Keys),
    (selectKey .any c keys = none ↔ ∀ k : Fin 16, keys[k.val] = false) ∧
    (∀ k : Reg, selectKey .any c keys = some k → keys[k.val] = true))
end

