-- ==== Sys2Proof/Laws/Decode.lean ====
section
/-!
SUPPORT. The fields of a packed word are what was packed, and a word is the packing of its fields
(30_encoding.md R91, R92).
-/

namespace Sys2Proof

@[simp] theorem regOf_nibbleOf (x : Reg) : regOf (nibbleOf x) = x := rfl
@[simp] theorem nibbleOf_regOf (n : Nibble) : nibbleOf (regOf n) = n := rfl

section Packed

variable (a b c d : Nibble) (nn : Byte) (nnn : Addr)

@[simp] theorem fieldOp_pack4 : fieldOp (pack4 a b c d) = a := by
  ext i hi; simp [fieldOp, pack4]; grind
@[simp] theorem nibbleX_pack4 : nibbleX (pack4 a b c d) = b := by
  ext i hi; simp [nibbleX, pack4]; grind
@[simp] theorem nibbleY_pack4 : nibbleY (pack4 a b c d) = c := by
  ext i hi; simp [nibbleY, pack4]; grind
@[simp] theorem fieldN_pack4 : fieldN (pack4 a b c d) = d := by
  ext i hi; simp [fieldN, pack4]; grind
@[simp] theorem fieldOp_packXK : fieldOp (packXK a b nn) = a := by
  ext i hi; simp [fieldOp, packXK]; grind
@[simp] theorem nibbleX_packXK : nibbleX (packXK a b nn) = b := by
  ext i hi; simp [nibbleX, packXK]; grind
@[simp] theorem fieldNN_packXK : fieldNN (packXK a b nn) = nn := by
  ext i hi; simp [fieldNN, packXK]; grind
@[simp] theorem fieldOp_packA : fieldOp (packA a nnn) = a := by
  ext i hi; simp [fieldOp, packA]; grind
@[simp] theorem fieldNNN_packA : fieldNNN (packA a nnn) = nnn := by
  ext i hi; simp [fieldNNN, packA]; grind

@[simp] theorem fieldX_pack4 : fieldX (pack4 a b c d) = regOf b := by simp [fieldX]
@[simp] theorem fieldY_pack4 : fieldY (pack4 a b c d) = regOf c := by simp [fieldY]
@[simp] theorem fieldX_packXK : fieldX (packXK a b nn) = regOf b := by simp [fieldX]

end Packed

/-! ## A word is the packing of its fields -/

theorem pack4_fields (w : Word) : pack4 (fieldOp w) (nibbleX w) (nibbleY w) (fieldN w) = w := by
  ext i hi
  simp [fieldOp, nibbleX, nibbleY, fieldN, pack4]
  grind

theorem packXK_fields (w : Word) : packXK (fieldOp w) (nibbleX w) (fieldNN w) = w := by
  ext i hi
  simp [fieldOp, nibbleX, fieldNN, packXK]
  grind

theorem packA_fields (w : Word) : packA (fieldOp w) (fieldNNN w) = w := by
  ext i hi
  simp [fieldOp, fieldNNN, packA]
  grind

@[simp] theorem nibbleOf_fieldX (w : Word) : nibbleOf (fieldX w) = nibbleX w := rfl
@[simp] theorem nibbleOf_fieldY (w : Word) : nibbleOf (fieldY w) = nibbleY w := rfl

/-- The word of two bytes: the first is the high one (R63). -/
theorem wordOfBytes_bytesOfWord (w : Word) :
    wordOfBytes (w.extractLsb' 8 8) (w.extractLsb' 0 8) = w := by
  ext i hi
  simp [wordOfBytes]
  grind

/-- The decoder on the two bytes of a word is the decoder on the word. -/
theorem decodeBytes_bytesOfWord (w : Word) (rest : List Byte) :
    decodeBytes (bytesOfWord w ++ rest) =
      match decodeWord Config.decodeStrict w with
      | .ok i => .ok (i, rest)
      | .error e => .error e := by
  cases h : decodeWord Config.decodeStrict w <;>
    simp [bytesOfWord, decodeBytes, wordOfBytes_bytesOfWord, h]

/-- With the default setting only a word without a row is rejected (R95, R97). -/
theorem decodeWord_false (w : Word) :
    decodeWord false w = match decodeLoose w with
      | none => .error (.noPattern w)
      | some i => .ok i := by
  unfold decodeWord
  cases decodeLoose w <;> simp [Instr.wellFormedWith]

/-! ## The masks of the opcode map on packed words (R96) -/

theorem pack4_and (a b c d a' b' c' d' : Nibble) :
    pack4 a b c d &&& pack4 a' b' c' d' = pack4 (a &&& a') (b &&& b') (c &&& c') (d &&& d') := by
  ext i hi; simp [pack4]; grind

theorem packXK_and (a b a' b' : Nibble) (nn nn' : Byte) :
    packXK a b nn &&& packXK a' b' nn' = packXK (a &&& a') (b &&& b') (nn &&& nn') := by
  ext i hi; simp [packXK]; grind

theorem packA_and (a a' : Nibble) (nnn nnn' : Addr) :
    packA a nnn &&& packA a' nnn' = packA (a &&& a') (nnn &&& nnn') := by
  ext i hi; simp [packA]; grind

theorem nibble_and_ones (a : Nibble) : a &&& 0xF#4 = a := BitVec.and_allOnes
theorem byte_and_ones (a : Byte) : a &&& 0xFF#8 = a := BitVec.and_allOnes

/-- Mask 0xF000 on a format `A` word. -/
theorem packA_mask (a : Nibble) (nnn : Addr) : packA a nnn &&& 0xF000#16 = packA a 0 := by
  exact (packA_and a 0xF#4 nnn 0#12).trans (by simp [nibble_and_ones])

/-- Mask 0xF000 on a format `XK` word. -/
theorem packXK_mask (a b : Nibble) (nn : Byte) : packXK a b nn &&& 0xF000#16 = packXK a 0 0 := by
  exact (packXK_and a b 0xF#4 0#4 nn 0#8).trans (by simp [nibble_and_ones])

/-- Mask 0xF0FF on a format `XS` or `Z` word. -/
theorem packXK_maskSel (a b : Nibble) (nn : Byte) : packXK a b nn &&& 0xF0FF#16 = packXK a 0 nn := by
  exact (packXK_and a b 0xF#4 0#4 nn 0xFF#8).trans (by simp [nibble_and_ones, byte_and_ones])

/-- Mask 0xF000 on a format `XYN` word. -/
theorem pack4_mask (a b c d : Nibble) : pack4 a b c d &&& 0xF000#16 = pack4 a 0 0 0 := by
  exact (pack4_and a b c d 0xF#4 0#4 0#4 0#4).trans (by simp [nibble_and_ones])

/-- Mask 0xF00F on a format `XYN` word of class 8. -/
theorem pack4_maskSel (a b c d : Nibble) : pack4 a b c d &&& 0xF00F#16 = pack4 a 0 0 d := by
  exact (pack4_and a b c d 0xF#4 0#4 0#4 0xF#4).trans (by simp [nibble_and_ones])

end Sys2Proof
end

