-- ==== Sys2Proof/Laws/State.lean ====
section
/-!
SUPPORT. One lemma per field of State and update of it, so that no later proof unfolds a record update.
-/

namespace Sys2Proof.Machine

variable (s : State)

/-! ### `State.setReg` -/

@[simp] theorem State.setReg_mem (x : Reg) (b : Byte) : (s.setReg x b).mem = s.mem := rfl
@[simp] theorem State.setReg_v (x : Reg) (b : Byte) : (s.setReg x b).v = s.v.set x.val b x.isLt := rfl
@[simp] theorem State.setReg_i (x : Reg) (b : Byte) : (s.setReg x b).i = s.i := rfl
@[simp] theorem State.setReg_pc (x : Reg) (b : Byte) : (s.setReg x b).pc = s.pc := rfl
@[simp] theorem State.setReg_stack (x : Reg) (b : Byte) : (s.setReg x b).stack = s.stack := rfl
@[simp] theorem State.setReg_sp (x : Reg) (b : Byte) : (s.setReg x b).sp = s.sp := rfl
@[simp] theorem State.setReg_dt (x : Reg) (b : Byte) : (s.setReg x b).dt = s.dt := rfl
@[simp] theorem State.setReg_st (x : Reg) (b : Byte) : (s.setReg x b).st = s.st := rfl
@[simp] theorem State.setReg_keys (x : Reg) (b : Byte) : (s.setReg x b).keys = s.keys := rfl
@[simp] theorem State.setReg_fb (x : Reg) (b : Byte) : (s.setReg x b).fb = s.fb := rfl
@[simp] theorem State.setReg_rf (x : Reg) (b : Byte) : (s.setReg x b).rf = s.rf := rfl
@[simp] theorem State.setReg_script (x : Reg) (b : Byte) : (s.setReg x b).script = s.script := rfl
@[simp] theorem State.setReg_rnd (x : Reg) (b : Byte) : (s.setReg x b).rnd = s.rnd := rfl
@[simp] theorem State.setReg_tick (x : Reg) (b : Byte) : (s.setReg x b).tick = s.tick := rfl
@[simp] theorem State.setReg_cycles (x : Reg) (b : Byte) : (s.setReg x b).cycles = s.cycles := rfl
@[simp] theorem State.setReg_audioTick (x : Reg) (b : Byte) : (s.setReg x b).audioTick = s.audioTick := rfl

/-! ### `State.setPc` -/

@[simp] theorem State.setPc_mem (t : Word) : (s.setPc t).mem = s.mem := rfl
@[simp] theorem State.setPc_v (t : Word) : (s.setPc t).v = s.v := rfl
@[simp] theorem State.setPc_i (t : Word) : (s.setPc t).i = s.i := rfl
@[simp] theorem State.setPc_pc (t : Word) : (s.setPc t).pc = t := rfl
@[simp] theorem State.setPc_stack (t : Word) : (s.setPc t).stack = s.stack := rfl
@[simp] theorem State.setPc_sp (t : Word) : (s.setPc t).sp = s.sp := rfl
@[simp] theorem State.setPc_dt (t : Word) : (s.setPc t).dt = s.dt := rfl
@[simp] theorem State.setPc_st (t : Word) : (s.setPc t).st = s.st := rfl
@[simp] theorem State.setPc_keys (t : Word) : (s.setPc t).keys = s.keys := rfl
@[simp] theorem State.setPc_fb (t : Word) : (s.setPc t).fb = s.fb := rfl
@[simp] theorem State.setPc_rf (t : Word) : (s.setPc t).rf = s.rf := rfl
@[simp] theorem State.setPc_script (t : Word) : (s.setPc t).script = s.script := rfl
@[simp] theorem State.setPc_rnd (t : Word) : (s.setPc t).rnd = s.rnd := rfl
@[simp] theorem State.setPc_tick (t : Word) : (s.setPc t).tick = s.tick := rfl
@[simp] theorem State.setPc_cycles (t : Word) : (s.setPc t).cycles = s.cycles := rfl
@[simp] theorem State.setPc_audioTick (t : Word) : (s.setPc t).audioTick = s.audioTick := rfl

/-! ### `State.advance` -/

@[simp] theorem State.advance_mem : s.advance.mem = s.mem := rfl
@[simp] theorem State.advance_v : s.advance.v = s.v := rfl
@[simp] theorem State.advance_i : s.advance.i = s.i := rfl
@[simp] theorem State.advance_pc : s.advance.pc = s.pc + 2 := rfl
@[simp] theorem State.advance_stack : s.advance.stack = s.stack := rfl
@[simp] theorem State.advance_sp : s.advance.sp = s.sp := rfl
@[simp] theorem State.advance_dt : s.advance.dt = s.dt := rfl
@[simp] theorem State.advance_st : s.advance.st = s.st := rfl
@[simp] theorem State.advance_keys : s.advance.keys = s.keys := rfl
@[simp] theorem State.advance_fb : s.advance.fb = s.fb := rfl
@[simp] theorem State.advance_rf : s.advance.rf = s.rf := rfl
@[simp] theorem State.advance_script : s.advance.script = s.script := rfl
@[simp] theorem State.advance_rnd : s.advance.rnd = s.rnd := rfl
@[simp] theorem State.advance_tick : s.advance.tick = s.tick := rfl
@[simp] theorem State.advance_cycles : s.advance.cycles = s.cycles := rfl
@[simp] theorem State.advance_audioTick : s.advance.audioTick = s.audioTick := rfl

/-! ### `State.skipIf` -/

@[simp] theorem State.skipIf_mem (c : Bool) : (s.skipIf c).mem = s.mem := by cases c <;> rfl
@[simp] theorem State.skipIf_v (c : Bool) : (s.skipIf c).v = s.v := by cases c <;> rfl
@[simp] theorem State.skipIf_i (c : Bool) : (s.skipIf c).i = s.i := by cases c <;> rfl
@[simp] theorem State.skipIf_pc (c : Bool) : (s.skipIf c).pc = if c then s.pc + 4 else s.pc + 2 := by cases c <;> rfl
@[simp] theorem State.skipIf_stack (c : Bool) : (s.skipIf c).stack = s.stack := by cases c <;> rfl
@[simp] theorem State.skipIf_sp (c : Bool) : (s.skipIf c).sp = s.sp := by cases c <;> rfl
@[simp] theorem State.skipIf_dt (c : Bool) : (s.skipIf c).dt = s.dt := by cases c <;> rfl
@[simp] theorem State.skipIf_st (c : Bool) : (s.skipIf c).st = s.st := by cases c <;> rfl
@[simp] theorem State.skipIf_keys (c : Bool) : (s.skipIf c).keys = s.keys := by cases c <;> rfl
@[simp] theorem State.skipIf_fb (c : Bool) : (s.skipIf c).fb = s.fb := by cases c <;> rfl
@[simp] theorem State.skipIf_rf (c : Bool) : (s.skipIf c).rf = s.rf := by cases c <;> rfl
@[simp] theorem State.skipIf_script (c : Bool) : (s.skipIf c).script = s.script := by cases c <;> rfl
@[simp] theorem State.skipIf_rnd (c : Bool) : (s.skipIf c).rnd = s.rnd := by cases c <;> rfl
@[simp] theorem State.skipIf_tick (c : Bool) : (s.skipIf c).tick = s.tick := by cases c <;> rfl
@[simp] theorem State.skipIf_cycles (c : Bool) : (s.skipIf c).cycles = s.cycles := by cases c <;> rfl
@[simp] theorem State.skipIf_audioTick (c : Bool) : (s.skipIf c).audioTick = s.audioTick := by cases c <;> rfl

/-! ### `State.setI` -/

@[simp] theorem State.setI_mem (w : Word) : (s.setI w).mem = s.mem := rfl
@[simp] theorem State.setI_v (w : Word) : (s.setI w).v = s.v := rfl
@[simp] theorem State.setI_i (w : Word) : (s.setI w).i = w := rfl
@[simp] theorem State.setI_pc (w : Word) : (s.setI w).pc = s.pc := rfl
@[simp] theorem State.setI_stack (w : Word) : (s.setI w).stack = s.stack := rfl
@[simp] theorem State.setI_sp (w : Word) : (s.setI w).sp = s.sp := rfl
@[simp] theorem State.setI_dt (w : Word) : (s.setI w).dt = s.dt := rfl
@[simp] theorem State.setI_st (w : Word) : (s.setI w).st = s.st := rfl
@[simp] theorem State.setI_keys (w : Word) : (s.setI w).keys = s.keys := rfl
@[simp] theorem State.setI_fb (w : Word) : (s.setI w).fb = s.fb := rfl
@[simp] theorem State.setI_rf (w : Word) : (s.setI w).rf = s.rf := rfl
@[simp] theorem State.setI_script (w : Word) : (s.setI w).script = s.script := rfl
@[simp] theorem State.setI_rnd (w : Word) : (s.setI w).rnd = s.rnd := rfl
@[simp] theorem State.setI_tick (w : Word) : (s.setI w).tick = s.tick := rfl
@[simp] theorem State.setI_cycles (w : Word) : (s.setI w).cycles = s.cycles := rfl
@[simp] theorem State.setI_audioTick (w : Word) : (s.setI w).audioTick = s.audioTick := rfl

/-! ### `State.setDt` -/

@[simp] theorem State.setDt_mem (b : Byte) : (s.setDt b).mem = s.mem := rfl
@[simp] theorem State.setDt_v (b : Byte) : (s.setDt b).v = s.v := rfl
@[simp] theorem State.setDt_i (b : Byte) : (s.setDt b).i = s.i := rfl
@[simp] theorem State.setDt_pc (b : Byte) : (s.setDt b).pc = s.pc := rfl
@[simp] theorem State.setDt_stack (b : Byte) : (s.setDt b).stack = s.stack := rfl
@[simp] theorem State.setDt_sp (b : Byte) : (s.setDt b).sp = s.sp := rfl
@[simp] theorem State.setDt_dt (b : Byte) : (s.setDt b).dt = b := rfl
@[simp] theorem State.setDt_st (b : Byte) : (s.setDt b).st = s.st := rfl
@[simp] theorem State.setDt_keys (b : Byte) : (s.setDt b).keys = s.keys := rfl
@[simp] theorem State.setDt_fb (b : Byte) : (s.setDt b).fb = s.fb := rfl
@[simp] theorem State.setDt_rf (b : Byte) : (s.setDt b).rf = s.rf := rfl
@[simp] theorem State.setDt_script (b : Byte) : (s.setDt b).script = s.script := rfl
@[simp] theorem State.setDt_rnd (b : Byte) : (s.setDt b).rnd = s.rnd := rfl
@[simp] theorem State.setDt_tick (b : Byte) : (s.setDt b).tick = s.tick := rfl
@[simp] theorem State.setDt_cycles (b : Byte) : (s.setDt b).cycles = s.cycles := rfl
@[simp] theorem State.setDt_audioTick (b : Byte) : (s.setDt b).audioTick = s.audioTick := rfl

/-! ### `State.setSt` -/

@[simp] theorem State.setSt_mem (b : Byte) : (s.setSt b).mem = s.mem := rfl
@[simp] theorem State.setSt_v (b : Byte) : (s.setSt b).v = s.v := rfl
@[simp] theorem State.setSt_i (b : Byte) : (s.setSt b).i = s.i := rfl
@[simp] theorem State.setSt_pc (b : Byte) : (s.setSt b).pc = s.pc := rfl
@[simp] theorem State.setSt_stack (b : Byte) : (s.setSt b).stack = s.stack := rfl
@[simp] theorem State.setSt_sp (b : Byte) : (s.setSt b).sp = s.sp := rfl
@[simp] theorem State.setSt_dt (b : Byte) : (s.setSt b).dt = s.dt := rfl
@[simp] theorem State.setSt_st (b : Byte) : (s.setSt b).st = b := rfl
@[simp] theorem State.setSt_keys (b : Byte) : (s.setSt b).keys = s.keys := rfl
@[simp] theorem State.setSt_fb (b : Byte) : (s.setSt b).fb = s.fb := rfl
@[simp] theorem State.setSt_rf (b : Byte) : (s.setSt b).rf = s.rf := rfl
@[simp] theorem State.setSt_script (b : Byte) : (s.setSt b).script = s.script := rfl
@[simp] theorem State.setSt_rnd (b : Byte) : (s.setSt b).rnd = s.rnd := rfl
@[simp] theorem State.setSt_tick (b : Byte) : (s.setSt b).tick = s.tick := rfl
@[simp] theorem State.setSt_cycles (b : Byte) : (s.setSt b).cycles = s.cycles := rfl
@[simp] theorem State.setSt_audioTick (b : Byte) : (s.setSt b).audioTick = s.audioTick := rfl

/-! ### `State.storeBytes` -/

@[simp] theorem State.storeBytes_mem (a : Nat) (xs : List Byte) : (s.storeBytes a xs).mem = s.mem.writeBytes a xs := rfl
@[simp] theorem State.storeBytes_v (a : Nat) (xs : List Byte) : (s.storeBytes a xs).v = s.v := rfl
@[simp] theorem State.storeBytes_i (a : Nat) (xs : List Byte) : (s.storeBytes a xs).i = s.i := rfl
@[simp] theorem State.storeBytes_pc (a : Nat) (xs : List Byte) : (s.storeBytes a xs).pc = s.pc := rfl
@[simp] theorem State.storeBytes_stack (a : Nat) (xs : List Byte) : (s.storeBytes a xs).stack = s.stack := rfl
@[simp] theorem State.storeBytes_sp (a : Nat) (xs : List Byte) : (s.storeBytes a xs).sp = s.sp := rfl
@[simp] theorem State.storeBytes_dt (a : Nat) (xs : List Byte) : (s.storeBytes a xs).dt = s.dt := rfl
@[simp] theorem State.storeBytes_st (a : Nat) (xs : List Byte) : (s.storeBytes a xs).st = s.st := rfl
@[simp] theorem State.storeBytes_keys (a : Nat) (xs : List Byte) : (s.storeBytes a xs).keys = s.keys := rfl
@[simp] theorem State.storeBytes_fb (a : Nat) (xs : List Byte) : (s.storeBytes a xs).fb = s.fb := rfl
@[simp] theorem State.storeBytes_rf (a : Nat) (xs : List Byte) : (s.storeBytes a xs).rf = s.rf := rfl
@[simp] theorem State.storeBytes_script (a : Nat) (xs : List Byte) : (s.storeBytes a xs).script = s.script := rfl
@[simp] theorem State.storeBytes_rnd (a : Nat) (xs : List Byte) : (s.storeBytes a xs).rnd = s.rnd := rfl
@[simp] theorem State.storeBytes_tick (a : Nat) (xs : List Byte) : (s.storeBytes a xs).tick = s.tick := rfl
@[simp] theorem State.storeBytes_cycles (a : Nat) (xs : List Byte) : (s.storeBytes a xs).cycles = s.cycles := rfl
@[simp] theorem State.storeBytes_audioTick (a : Nat) (xs : List Byte) : (s.storeBytes a xs).audioTick = s.audioTick := rfl

/-! ### `State.loadV` -/

@[simp] theorem State.loadV_mem (bs : List Byte) : (s.loadV bs).mem = s.mem := rfl
@[simp] theorem State.loadV_v (bs : List Byte) : (s.loadV bs).v = fillRegs bs 0 s.v := rfl
@[simp] theorem State.loadV_i (bs : List Byte) : (s.loadV bs).i = s.i := rfl
@[simp] theorem State.loadV_pc (bs : List Byte) : (s.loadV bs).pc = s.pc := rfl
@[simp] theorem State.loadV_stack (bs : List Byte) : (s.loadV bs).stack = s.stack := rfl
@[simp] theorem State.loadV_sp (bs : List Byte) : (s.loadV bs).sp = s.sp := rfl
@[simp] theorem State.loadV_dt (bs : List Byte) : (s.loadV bs).dt = s.dt := rfl
@[simp] theorem State.loadV_st (bs : List Byte) : (s.loadV bs).st = s.st := rfl
@[simp] theorem State.loadV_keys (bs : List Byte) : (s.loadV bs).keys = s.keys := rfl
@[simp] theorem State.loadV_fb (bs : List Byte) : (s.loadV bs).fb = s.fb := rfl
@[simp] theorem State.loadV_rf (bs : List Byte) : (s.loadV bs).rf = s.rf := rfl
@[simp] theorem State.loadV_script (bs : List Byte) : (s.loadV bs).script = s.script := rfl
@[simp] theorem State.loadV_rnd (bs : List Byte) : (s.loadV bs).rnd = s.rnd := rfl
@[simp] theorem State.loadV_tick (bs : List Byte) : (s.loadV bs).tick = s.tick := rfl
@[simp] theorem State.loadV_cycles (bs : List Byte) : (s.loadV bs).cycles = s.cycles := rfl
@[simp] theorem State.loadV_audioTick (bs : List Byte) : (s.loadV bs).audioTick = s.audioTick := rfl

/-! ### `State.setScreen` -/

@[simp] theorem State.setScreen_mem (g : Screen) : (s.setScreen g).mem = s.mem := rfl
@[simp] theorem State.setScreen_v (g : Screen) : (s.setScreen g).v = s.v := rfl
@[simp] theorem State.setScreen_i (g : Screen) : (s.setScreen g).i = s.i := rfl
@[simp] theorem State.setScreen_pc (g : Screen) : (s.setScreen g).pc = s.pc := rfl
@[simp] theorem State.setScreen_stack (g : Screen) : (s.setScreen g).stack = s.stack := rfl
@[simp] theorem State.setScreen_sp (g : Screen) : (s.setScreen g).sp = s.sp := rfl
@[simp] theorem State.setScreen_dt (g : Screen) : (s.setScreen g).dt = s.dt := rfl
@[simp] theorem State.setScreen_st (g : Screen) : (s.setScreen g).st = s.st := rfl
@[simp] theorem State.setScreen_keys (g : Screen) : (s.setScreen g).keys = s.keys := rfl
@[simp] theorem State.setScreen_fb (g : Screen) : (s.setScreen g).fb = g := rfl
@[simp] theorem State.setScreen_rf (g : Screen) : (s.setScreen g).rf = true := rfl
@[simp] theorem State.setScreen_script (g : Screen) : (s.setScreen g).script = s.script := rfl
@[simp] theorem State.setScreen_rnd (g : Screen) : (s.setScreen g).rnd = s.rnd := rfl
@[simp] theorem State.setScreen_tick (g : Screen) : (s.setScreen g).tick = s.tick := rfl
@[simp] theorem State.setScreen_cycles (g : Screen) : (s.setScreen g).cycles = s.cycles := rfl
@[simp] theorem State.setScreen_audioTick (g : Screen) : (s.setScreen g).audioTick = s.audioTick := rfl

/-! ### `State.setKeys` -/

@[simp] theorem State.setKeys_mem (k : Keys) : (s.setKeys k).mem = s.mem := rfl
@[simp] theorem State.setKeys_v (k : Keys) : (s.setKeys k).v = s.v := rfl
@[simp] theorem State.setKeys_i (k : Keys) : (s.setKeys k).i = s.i := rfl
@[simp] theorem State.setKeys_pc (k : Keys) : (s.setKeys k).pc = s.pc := rfl
@[simp] theorem State.setKeys_stack (k : Keys) : (s.setKeys k).stack = s.stack := rfl
@[simp] theorem State.setKeys_sp (k : Keys) : (s.setKeys k).sp = s.sp := rfl
@[simp] theorem State.setKeys_dt (k : Keys) : (s.setKeys k).dt = s.dt := rfl
@[simp] theorem State.setKeys_st (k : Keys) : (s.setKeys k).st = s.st := rfl
@[simp] theorem State.setKeys_keys (k : Keys) : (s.setKeys k).keys = k := rfl
@[simp] theorem State.setKeys_fb (k : Keys) : (s.setKeys k).fb = s.fb := rfl
@[simp] theorem State.setKeys_rf (k : Keys) : (s.setKeys k).rf = s.rf := rfl
@[simp] theorem State.setKeys_script (k : Keys) : (s.setKeys k).script = s.script := rfl
@[simp] theorem State.setKeys_rnd (k : Keys) : (s.setKeys k).rnd = s.rnd := rfl
@[simp] theorem State.setKeys_tick (k : Keys) : (s.setKeys k).tick = s.tick := rfl
@[simp] theorem State.setKeys_cycles (k : Keys) : (s.setKeys k).cycles = s.cycles := rfl
@[simp] theorem State.setKeys_audioTick (k : Keys) : (s.setKeys k).audioTick = s.audioTick := rfl

/-! ### `State.clearRedraw` -/

@[simp] theorem State.clearRedraw_mem : s.clearRedraw.mem = s.mem := rfl
@[simp] theorem State.clearRedraw_v : s.clearRedraw.v = s.v := rfl
@[simp] theorem State.clearRedraw_i : s.clearRedraw.i = s.i := rfl
@[simp] theorem State.clearRedraw_pc : s.clearRedraw.pc = s.pc := rfl
@[simp] theorem State.clearRedraw_stack : s.clearRedraw.stack = s.stack := rfl
@[simp] theorem State.clearRedraw_sp : s.clearRedraw.sp = s.sp := rfl
@[simp] theorem State.clearRedraw_dt : s.clearRedraw.dt = s.dt := rfl
@[simp] theorem State.clearRedraw_st : s.clearRedraw.st = s.st := rfl
@[simp] theorem State.clearRedraw_keys : s.clearRedraw.keys = s.keys := rfl
@[simp] theorem State.clearRedraw_fb : s.clearRedraw.fb = s.fb := rfl
@[simp] theorem State.clearRedraw_rf : s.clearRedraw.rf = false := rfl
@[simp] theorem State.clearRedraw_script : s.clearRedraw.script = s.script := rfl
@[simp] theorem State.clearRedraw_rnd : s.clearRedraw.rnd = s.rnd := rfl
@[simp] theorem State.clearRedraw_tick : s.clearRedraw.tick = s.tick := rfl
@[simp] theorem State.clearRedraw_cycles : s.clearRedraw.cycles = s.cycles := rfl
@[simp] theorem State.clearRedraw_audioTick : s.clearRedraw.audioTick = s.audioTick := rfl

/-! ### `beginCycle` -/

@[simp] theorem beginCycle_mem (r : Option Byte) (c : Bool) : (beginCycle r c s).mem = s.mem := rfl
@[simp] theorem beginCycle_v (r : Option Byte) (c : Bool) : (beginCycle r c s).v = s.v := rfl
@[simp] theorem beginCycle_i (r : Option Byte) (c : Bool) : (beginCycle r c s).i = s.i := rfl
@[simp] theorem beginCycle_pc (r : Option Byte) (c : Bool) : (beginCycle r c s).pc = s.pc := rfl
@[simp] theorem beginCycle_stack (r : Option Byte) (c : Bool) : (beginCycle r c s).stack = s.stack := rfl
@[simp] theorem beginCycle_sp (r : Option Byte) (c : Bool) : (beginCycle r c s).sp = s.sp := rfl
@[simp] theorem beginCycle_dt (r : Option Byte) (c : Bool) : (beginCycle r c s).dt = s.dt := rfl
@[simp] theorem beginCycle_st (r : Option Byte) (c : Bool) : (beginCycle r c s).st = s.st := rfl
@[simp] theorem beginCycle_keys (r : Option Byte) (c : Bool) : (beginCycle r c s).keys = s.keys := rfl
@[simp] theorem beginCycle_fb (r : Option Byte) (c : Bool) : (beginCycle r c s).fb = s.fb := rfl
@[simp] theorem beginCycle_rf (r : Option Byte) (c : Bool) : (beginCycle r c s).rf = s.rf := rfl
@[simp] theorem beginCycle_script (r : Option Byte) (c : Bool) : (beginCycle r c s).script = s.script := rfl
@[simp] theorem beginCycle_rnd (r : Option Byte) (c : Bool) : (beginCycle r c s).rnd = r := rfl
@[simp] theorem beginCycle_tick (r : Option Byte) (c : Bool) : (beginCycle r c s).tick = c := rfl
@[simp] theorem beginCycle_cycles (r : Option Byte) (c : Bool) : (beginCycle r c s).cycles = s.cycles + 1 := rfl
@[simp] theorem beginCycle_audioTick (r : Option Byte) (c : Bool) : (beginCycle r c s).audioTick = s.audioTick := rfl

/-! ### `timerTick` -/

@[simp] theorem timerTick_mem : (timerTick s).mem = s.mem := rfl
@[simp] theorem timerTick_v : (timerTick s).v = s.v := rfl
@[simp] theorem timerTick_i : (timerTick s).i = s.i := rfl
@[simp] theorem timerTick_pc : (timerTick s).pc = s.pc := rfl
@[simp] theorem timerTick_stack : (timerTick s).stack = s.stack := rfl
@[simp] theorem timerTick_sp : (timerTick s).sp = s.sp := rfl
@[simp] theorem timerTick_dt : (timerTick s).dt = countDown s.dt := rfl
@[simp] theorem timerTick_st : (timerTick s).st = countDown s.st := rfl
@[simp] theorem timerTick_keys : (timerTick s).keys = s.keys := rfl
@[simp] theorem timerTick_fb : (timerTick s).fb = s.fb := rfl
@[simp] theorem timerTick_rf : (timerTick s).rf = s.rf := rfl
@[simp] theorem timerTick_script : (timerTick s).script = s.script := rfl
@[simp] theorem timerTick_rnd : (timerTick s).rnd = s.rnd := rfl
@[simp] theorem timerTick_tick : (timerTick s).tick = s.tick := rfl
@[simp] theorem timerTick_cycles : (timerTick s).cycles = s.cycles := rfl
@[simp] theorem timerTick_audioTick : (timerTick s).audioTick = decide (s.st = 1) := rfl

/-! ### `timerPhase` -/

@[simp] theorem timerPhase_mem : (timerPhase s).mem = s.mem := by unfold timerPhase; split <;> simp_all [timerTick]
@[simp] theorem timerPhase_v : (timerPhase s).v = s.v := by unfold timerPhase; split <;> simp_all [timerTick]
@[simp] theorem timerPhase_i : (timerPhase s).i = s.i := by unfold timerPhase; split <;> simp_all [timerTick]
@[simp] theorem timerPhase_pc : (timerPhase s).pc = s.pc := by unfold timerPhase; split <;> simp_all [timerTick]
@[simp] theorem timerPhase_stack : (timerPhase s).stack = s.stack := by unfold timerPhase; split <;> simp_all [timerTick]
@[simp] theorem timerPhase_sp : (timerPhase s).sp = s.sp := by unfold timerPhase; split <;> simp_all [timerTick]
@[simp] theorem timerPhase_dt : (timerPhase s).dt = if s.tick then countDown s.dt else s.dt := by unfold timerPhase; split <;> simp_all [timerTick]
@[simp] theorem timerPhase_st : (timerPhase s).st = if s.tick then countDown s.st else s.st := by unfold timerPhase; split <;> simp_all [timerTick]
@[simp] theorem timerPhase_keys : (timerPhase s).keys = s.keys := by unfold timerPhase; split <;> simp_all [timerTick]
@[simp] theorem timerPhase_fb : (timerPhase s).fb = s.fb := by unfold timerPhase; split <;> simp_all [timerTick]
@[simp] theorem timerPhase_rf : (timerPhase s).rf = s.rf := by unfold timerPhase; split <;> simp_all [timerTick]
@[simp] theorem timerPhase_script : (timerPhase s).script = s.script := by unfold timerPhase; split <;> simp_all [timerTick]
@[simp] theorem timerPhase_rnd : (timerPhase s).rnd = s.rnd := by unfold timerPhase; split <;> simp_all [timerTick]
@[simp] theorem timerPhase_tick : (timerPhase s).tick = s.tick := by unfold timerPhase; split <;> simp_all [timerTick]
@[simp] theorem timerPhase_cycles : (timerPhase s).cycles = s.cycles := by unfold timerPhase; split <;> simp_all [timerTick]
@[simp] theorem timerPhase_audioTick : (timerPhase s).audioTick = (s.tick && decide (s.st = 1)) := by unfold timerPhase; split <;> simp_all [timerTick]

end Sys2Proof.Machine
end

