-- ==== Sys2Proof/Laws/Memory.lean ====
section
/-!
SUPPORT. The laws of memory: what a read gives after a write, the canonical form every memory operation
keeps, and that equal contents in canonical form are equal data (20_memory.md R61, R64, R66).
-/

namespace Sys2Proof.Machine

namespace Memory

theorem wfFrom_cons {lo a : Nat} {x : Byte} {m : Memory} :
    wfFrom lo ((a, x) :: m) = true ↔
      lo ≤ a ∧ a < 4096 ∧ x ≠ Config.memFill ∧ wfFrom (a + 1) m = true := by
  simp [wfFrom, and_assoc]

theorem wfFrom_mono {lo lo' : Nat} {m : Memory} (h : wfFrom lo m = true) (hl : lo' ≤ lo) :
    wfFrom lo' m = true := by
  cases m with
  | nil => rfl
  | cons c m =>
    rw [wfFrom_cons] at h ⊢
    exact ⟨by omega, h.2⟩

/-- Below its first possible address a memory reads as nothing listed. -/
theorem read_below {lo a : Nat} {m : Memory} (h : wfFrom lo m = true) (ha : a < lo) :
    m.read a = Config.memFill := by
  induction m generalizing lo with
  | nil => rfl
  | cons c m ih =>
    obtain ⟨h1, -, -, h2⟩ := wfFrom_cons.1 h
    have hne : ¬ c.1 = a := by omega
    simp only [read, hne, if_false]
    exact ih h2 (by omega)

theorem read_consCell {a b : Nat} {x : Byte} {m : Memory} (h : wfFrom (a + 1) m = true) :
    (consCell a x m).read b = if b = a then x else m.read b := by
  by_cases hx : x = Config.memFill
  · by_cases hb : b = a
    · subst hb; simp [consCell, hx, read_below h (Nat.lt_succ_self b)]
    · simp [consCell, hx, hb]
  · by_cases hb : b = a
    · subst hb; simp [consCell, hx, read]
    · simp [consCell, hx, read, hb, Ne.symm hb]

theorem wfFrom_consCell {lo a : Nat} {x : Byte} {m : Memory} (h : wfFrom (a + 1) m = true)
    (hlo : lo ≤ a) (ha : a < 4096) : wfFrom lo (consCell a x m) = true := by
  by_cases hx : x = Config.memFill
  · simpa [consCell, hx] using wfFrom_mono h (by omega)
  · simp only [consCell, hx, if_false]
    exact wfFrom_cons.2 ⟨hlo, ha, hx, h⟩

theorem wfFrom_write {lo a : Nat} {x : Byte} {m : Memory} (h : wfFrom lo m = true)
    (hlo : lo ≤ a) (ha : a < 4096) : wfFrom lo (m.write a x) = true := by
  induction m generalizing lo with
  | nil => exact wfFrom_consCell rfl hlo ha
  | cons c m ih =>
    obtain ⟨h1, h2, h3, h4⟩ := wfFrom_cons.1 h
    simp only [write]
    split
    · exact wfFrom_consCell (wfFrom_cons.2 ⟨by omega, h2, h3, h4⟩) hlo ha
    · split
      · rename_i heq
        exact wfFrom_consCell (heq ▸ h4) hlo ha
      · exact wfFrom_cons.2 ⟨h1, h2, h3, ih h4 (by omega)⟩

/-- A read after a write to the same place gives the byte written; every other place is left alone. -/
theorem read_write {lo a b : Nat} {x : Byte} {m : Memory} (h : wfFrom lo m = true) :
    (m.write a x).read b = if b = a then x else m.read b := by
  induction m generalizing lo with
  | nil => exact read_consCell rfl
  | cons c m ih =>
    obtain ⟨h1, h2, h3, h4⟩ := wfFrom_cons.1 h
    simp only [write]
    split
    · exact read_consCell (wfFrom_cons.2 ⟨by omega, h2, h3, h4⟩)
    · split
      · rename_i heq
        rw [read_consCell (heq ▸ h4)]
        by_cases hb : b = a
        · simp [hb]
        · have : ¬ c.1 = b := by omega
          simp [hb, read, this]
      · rename_i hlt hne
        by_cases hb : c.1 = b
        · have : ¬ b = a := by omega
          simp [read, hb, this]
        · simp [read, hb, ih h4]

/-- Storing bytes in range keeps the canonical form. -/
theorem wf_writeBytes {a : Nat} {xs : List Byte} {m : Memory} (h : m.wf = true)
    (ha : a + xs.length ≤ 4096) : (m.writeBytes a xs).wf = true := by
  induction xs generalizing m a with
  | nil => exact h
  | cons x xs ih =>
    simp only [List.length_cons] at ha
    exact ih (wfFrom_write h (Nat.zero_le _) (by omega)) (by omega)

/-- A store of bytes leaves every address outside them alone. -/
theorem read_writeBytes_outside {a b : Nat} {xs : List Byte} {m : Memory} (h : m.wf = true)
    (ha : a + xs.length ≤ 4096) (hb : b < a ∨ a + xs.length ≤ b) :
    (m.writeBytes a xs).read b = m.read b := by
  induction xs generalizing m a with
  | nil => rfl
  | cons x xs ih =>
    simp only [List.length_cons] at ha hb
    have hw : (m.write a x).wf = true := wfFrom_write h (Nat.zero_le _) (by omega)
    have hne : ¬ b = a := by omega
    simp only [writeBytes]
    rw [ih hw (by omega) (by omega), read_write h, if_neg hne]

/-- A store of bytes is seen at each of its addresses. -/
theorem read_writeBytes_inside {a k : Nat} {xs : List Byte} {m : Memory} (h : m.wf = true)
    (ha : a + xs.length ≤ 4096) (hk : k < xs.length) :
    (m.writeBytes a xs).read (a + k) = xs[k] := by
  induction xs generalizing m a k with
  | nil => simp at hk
  | cons x xs ih =>
    simp only [List.length_cons] at ha hk
    have hw : (m.write a x).wf = true := wfFrom_write h (Nat.zero_le _) (by omega)
    cases k with
    | zero =>
      simp only [writeBytes, Nat.add_zero, List.getElem_cons_zero]
      rw [read_writeBytes_outside hw (by omega) (by omega), read_write h, if_pos rfl]
    | succ k =>
      simp only [writeBytes, List.getElem_cons_succ]
      have := ih hw (a := a + 1) (k := k) (by omega) (by omega)
      rwa [show a + 1 + k = a + (k + 1) by omega] at this

@[simp] theorem length_readBytes (m : Memory) (a n : Nat) : (m.readBytes a n).length = n := by
  induction n generalizing a with
  | zero => rfl
  | succ n ih => simp [readBytes, ih]

@[simp] theorem getElem_readBytes (m : Memory) (a n k : Nat) (h : k < (m.readBytes a n).length) :
    (m.readBytes a n)[k] = m.read (a + k) := by
  induction n generalizing a k with
  | zero => simp [readBytes] at h
  | succ n ih =>
    cases k with
    | zero => rfl
    | succ k =>
      simp only [readBytes, List.getElem_cons_succ]
      rw [ih]
      congr 1
      omega

/-- Equal contents in canonical form are equal data. -/
theorem ext_of_wfFrom {lo : Nat} {m m' : Memory} (h : wfFrom lo m = true) (h' : wfFrom lo m' = true)
    (hr : ∀ a, m.read a = m'.read a) : m = m' := by
  induction m generalizing lo m' with
  | nil =>
    cases m' with
    | nil => rfl
    | cons c' m' =>
      obtain ⟨-, -, h3, -⟩ := wfFrom_cons.1 h'
      exact absurd (by simpa [read] using (hr c'.1).symm) h3
  | cons c m ih =>
    obtain ⟨h1, h2, h3, h4⟩ := wfFrom_cons.1 h
    cases m' with
    | nil => exact absurd (by simpa [read] using hr c.1) h3
    | cons c' m' =>
      obtain ⟨g1, g2, g3, g4⟩ := wfFrom_cons.1 h'
      have hc : c.1 = c'.1 := by
        rcases Nat.lt_trichotomy c.1 c'.1 with hlt | heq | hlt
        · have := hr c.1
          rw [read_below (lo := c'.1) (m := c' :: m') (wfFrom_cons.2 ⟨le_refl _, g2, g3, g4⟩) hlt] at this
          exact absurd (by simpa [read] using this) h3
        · exact heq
        · have := hr c'.1
          rw [read_below (lo := c.1) (m := c :: m) (wfFrom_cons.2 ⟨le_refl _, h2, h3, h4⟩) hlt] at this
          exact absurd (by simpa [read] using this.symm) g3
      have hx : c.2 = c'.2 := by
        have := hr c.1
        simpa [read, hc] using this
      have hm : m = m' := by
        refine ih h4 (hc ▸ g4) fun a => ?_
        by_cases ha : a < c.1 + 1
        · rw [read_below h4 ha, read_below g4 (by omega)]
        · have := hr a
          have n1 : ¬ c.1 = a := by omega
          have n2 : ¬ c'.1 = a := by omega
          simpa [read, n1, n2] using this
      rw [hm, show c = c' from Prod.ext hc hx]

theorem ext_of_wf {m m' : Memory} (h : m.wf = true) (h' : m'.wf = true)
    (hr : ∀ a, m.read a = m'.read a) : m = m' := ext_of_wfFrom h h' hr

end Memory

/-! ## The same through the state -/

theorem byteAt_of_mem_eq {s t : State} (h : t.mem = s.mem) (a : Nat) : t.byteAt a = s.byteAt a := by
  simp [State.byteAt, h]

theorem byteAt_storeBytes_outside {s : State} {a b : Nat} {xs : List Byte} (h : s.mem.wf = true)
    (ha : a + xs.length ≤ 4096) (hb : b < a ∨ a + xs.length ≤ b) :
    (s.storeBytes a xs).byteAt b = s.byteAt b := Memory.read_writeBytes_outside h ha hb

theorem byteAt_storeBytes_inside {s : State} {a k : Nat} {xs : List Byte} (h : s.mem.wf = true)
    (ha : a + xs.length ≤ 4096) (hk : k < xs.length) :
    (s.storeBytes a xs).byteAt (a + k) = xs[k] := Memory.read_writeBytes_inside h ha hk

end Sys2Proof.Machine
end

