-- ==== Sys2Proof/Laws/Registers.lean ====
section
/-!
SUPPORT. The laws of the register file (10_state.md R22) and of loading registers (42_index_memory.md
R205): what reading a register gives after each update.
-/

namespace Sys2Proof.Machine

variable (s : State)

/-- A read of a register after a write of one. -/
theorem reg_setReg (x k : Reg) (b : Byte) : (s.setReg x b).reg k = if k = x then b else s.reg k := by
  by_cases h : k = x
  · subst h; simp [State.reg, State.setReg]
  · have hne : x.val ≠ k.val := fun e => h (Fin.ext e.symm)
    simp [State.reg, State.setReg, h, hne]

@[simp] theorem reg_setReg_same (x : Reg) (b : Byte) : (s.setReg x b).reg x = b := by
  simp [reg_setReg]

theorem reg_setReg_other {x k : Reg} (b : Byte) (h : k ≠ x) : (s.setReg x b).reg k = s.reg k := by
  simp [reg_setReg, h]

theorem reg_of_v_eq {s t : State} (h : t.v = s.v) (k : Reg) : t.reg k = s.reg k := by
  simp [State.reg, h]

@[simp] theorem reg_setPc (t : Word) (k : Reg) : (s.setPc t).reg k = s.reg k := rfl
@[simp] theorem reg_advance (k : Reg) : s.advance.reg k = s.reg k := rfl
@[simp] theorem reg_skipIf (c : Bool) (k : Reg) : (s.skipIf c).reg k = s.reg k := by cases c <;> rfl
@[simp] theorem reg_setI (w : Word) (k : Reg) : (s.setI w).reg k = s.reg k := rfl
@[simp] theorem reg_setDt (b : Byte) (k : Reg) : (s.setDt b).reg k = s.reg k := rfl
@[simp] theorem reg_setSt (b : Byte) (k : Reg) : (s.setSt b).reg k = s.reg k := rfl
@[simp] theorem reg_storeBytes (a : Nat) (xs : List Byte) (k : Reg) :
    (s.storeBytes a xs).reg k = s.reg k := rfl
@[simp] theorem reg_setScreen (g : Screen) (k : Reg) : (s.setScreen g).reg k = s.reg k := rfl
@[simp] theorem reg_timerPhase (k : Reg) : (timerPhase s).reg k = s.reg k := by
  simp [State.reg]

/-! ## Loading registers -/

theorem getElem_fillRegs (bs : List Byte) (k : Nat) (v : Vector Byte 16) (j : Nat) (hj : j < 16) :
    (fillRegs bs k v)[j] = if h : k ≤ j ∧ j < k + bs.length then bs[j - k] else v[j] := by
  induction bs generalizing k v with
  | nil =>
    have h : ¬ (k ≤ j ∧ j < k + ([] : List Byte).length) := by simp
    rw [dif_neg h]
    rfl
  | cons b bs ih =>
    simp only [fillRegs, ih, List.length_cons]
    by_cases h1 : k + 1 ≤ j ∧ j < k + 1 + bs.length
    · have h2 : k ≤ j ∧ j < k + (bs.length + 1) := by omega
      rw [dif_pos h1, dif_pos h2]
      have e : j - k = (j - (k + 1)) + 1 := by omega
      simp only [e, List.getElem_cons_succ]
    · rw [dif_neg h1, Vector.getElem_setIfInBounds]
      by_cases h3 : k = j
      · subst h3
        have h2 : k ≤ k ∧ k < k + (bs.length + 1) := by omega
        simp
      · have h2 : ¬ (k ≤ j ∧ j < k + (bs.length + 1)) := by omega
        rw [dif_neg h2, if_neg h3]

/-- A register after bytes are loaded into `V[0], V[1], …`. -/
theorem reg_loadV (bs : List Byte) (k : Reg) :
    (s.loadV bs).reg k = if h : k.val < bs.length then bs[k.val] else s.reg k := by
  have := getElem_fillRegs bs 0 s.v k.val k.isLt
  simpa [State.reg] using this

end Sys2Proof.Machine
end

