-- ==== Sys2Proof/Laws/Screen.lean ====
section
/-!
SUPPORT. The laws of the framebuffer and of drawing (43_display.md R220, R222): what every pixel holds
after a sprite is drawn, and when the drawing collides.
-/

namespace Sys2Proof.Machine

namespace Screen

variable (fb : Screen)

/-- Outside the grid there is no pixel. -/
theorem pixel_outside {y x : Nat} (h : ¬ (y < 32 ∧ x < 64)) : fb.pixel y x = false := by
  simp [pixel, h]

theorem pixel_setPixel {y x y' x' : Nat} {b : Bool} (h : y < 32 ∧ x < 64) :
    (fb.setPixel y x b).pixel y' x' = if y' = y ∧ x' = x then b else fb.pixel y' x' := by
  by_cases h' : y' < 32 ∧ x' < 64
  · simp only [pixel, setPixel, dif_pos h, dif_pos h']
    by_cases hy : y = y'
    · subst hy
      by_cases hx : x = x'
      · subst hx; simp
      · simp [hx, Ne.symm hx]
    · simp [hy, Ne.symm hy]
  · have : ¬ (y' = y ∧ x' = x) := by rintro ⟨rfl, rfl⟩; exact h' h
    simp [this, pixel, h']

@[simp] theorem pixel_blank (y x : Nat) : Screen.blank.pixel y x = false := by
  by_cases h : y < 32 ∧ x < 64
  · simp [pixel, blank]
  · exact pixel_outside _ h

/-- Two framebuffers with the same pixels are equal. -/
theorem ext_pixel {fb fb' : Screen} (h : ∀ y x, y < 32 → x < 64 → fb.pixel y x = fb'.pixel y x) :
    fb = fb' := by
  refine Vector.ext fun y hy => Vector.ext fun x hx => ?_
  have := h y x hy hx
  simpa [pixel, hy, hx] using this

end Screen

/-! ## One pixel, one row, one sprite -/

theorem drawPixel_pixel (py px : Nat) (bit : Bool) (d : Drawing) (y x : Nat) :
    (drawPixel py px bit d).1.pixel y x =
      (d.1.pixel y x ^^ (bit && decide (y = py ∧ x = px ∧ py < 32 ∧ px < 64))) := by
  unfold drawPixel
  by_cases h : bit = true ∧ px ≤ 63 ∧ py ≤ 31
  · obtain ⟨h1, h2, h3⟩ := h
    have hg : py < 32 ∧ px < 64 := by omega
    simp only [h1, h2, h3, Bool.true_and, decide_true, if_true]
    rw [Screen.pixel_setPixel _ hg]
    by_cases hyx : y = py ∧ x = px
    · obtain ⟨rfl, rfl⟩ := hyx
      simp [hg]
    · have : ¬ (y = py ∧ x = px ∧ py < 32 ∧ px < 64) := fun h => hyx ⟨h.1, h.2.1⟩
      simp [hyx, this]
  · have hc : (bit && decide (px ≤ 63) && decide (py ≤ 31)) = false := by
      by_contra hc
      simp only [Bool.not_eq_false, Bool.and_eq_true, decide_eq_true_eq] at hc
      exact h ⟨hc.1.1, hc.1.2, hc.2⟩
    rw [hc]
    cases bit with
    | false => simp
    | true =>
      have : ¬ (y = py ∧ x = px ∧ py < 32 ∧ px < 64) := fun g => h ⟨rfl, by omega, by omega⟩
      simp [this]

theorem drawPixel_hit (py px : Nat) (bit : Bool) (d : Drawing) :
    (drawPixel py px bit d).2 = (d.2 || (bit && decide (py < 32 ∧ px < 64) && d.1.pixel py px)) := by
  unfold drawPixel
  by_cases h : bit = true ∧ px ≤ 63 ∧ py ≤ 31
  · obtain ⟨h1, h2, h3⟩ := h
    have hg : py < 32 ∧ px < 64 := by omega
    simp [h1, h2, h3, hg]
  · have hc : (bit && decide (px ≤ 63) && decide (py ≤ 31)) = false := by
      by_contra hc
      simp only [Bool.not_eq_false, Bool.and_eq_true, decide_eq_true_eq] at hc
      exact h ⟨hc.1.1, hc.1.2, hc.2⟩
    rw [hc]
    cases bit with
    | false => simp
    | true =>
      have : ¬ (py < 32 ∧ px < 64) := fun g => h ⟨rfl, by omega, by omega⟩
      simp [this]

/-- Whether the bits of sprite byte `b`, drawn in row `py` from column `x0` on, columns `c` to
`c + k - 1` of it, light pixel `(y, x)` of the grid. -/
def litCols (b : Byte) (py x0 c k y x : Nat) : Bool :=
  decide (y = py ∧ x0 + c ≤ x ∧ x < x0 + c + k ∧ y < 32 ∧ x < 64) &&
    spriteBit Config.spriteMsbLeft b (x - x0)

theorem drawCols_pixel (b : Byte) (py x0 : Nat) (k c : Nat) (d : Drawing) (y x : Nat) :
    (drawCols b py x0 c k d).1.pixel y x = (d.1.pixel y x ^^ litCols b py x0 c k y x) := by
  induction k generalizing c d with
  | zero =>
    have : ¬ (y = py ∧ x0 + c ≤ x ∧ x < x0 + c + 0 ∧ y < 32 ∧ x < 64) := by omega
    simp only [drawCols, litCols, this, decide_false, Bool.false_and, Bool.xor_false]
  | succ k ih =>
    rw [drawCols, ih, drawPixel_pixel, Bool.xor_assoc]
    congr 1
    by_cases hx : x = x0 + c
    · subst hx
      have h1 : ¬ (y = py ∧ x0 + (c + 1) ≤ x0 + c ∧ x0 + c < x0 + (c + 1) + k ∧ y < 32 ∧ x0 + c < 64) := by
        omega
      by_cases h2 : y = py ∧ py < 32 ∧ x0 + c < 64
      · obtain ⟨rfl, h3, h4⟩ := h2
        simp [litCols, h3, h4]
      · have h3 : ¬ (y = py ∧ True ∧ py < 32 ∧ x0 + c < 64) := fun g => h2 ⟨g.1, g.2.2⟩
        have h4 : ¬ (y = py ∧ x0 + c ≤ x0 + c ∧ x0 + c < x0 + c + (k + 1) ∧ y < 32 ∧ x0 + c < 64) :=
          fun g => h2 ⟨g.1, g.1 ▸ g.2.2.2.1, g.2.2.2.2⟩
        simp only [litCols, h1, h3, h4, decide_false, Bool.and_false, Bool.false_and, Bool.xor_false]
    · have h3 : ¬ (y = py ∧ x = x0 + c ∧ py < 32 ∧ x0 + c < 64) := fun g => hx g.2.1
      have e : (y = py ∧ x0 + (c + 1) ≤ x ∧ x < x0 + (c + 1) + k ∧ y < 32 ∧ x < 64) ↔
          (y = py ∧ x0 + c ≤ x ∧ x < x0 + c + (k + 1) ∧ y < 32 ∧ x < 64) := by omega
      simp only [litCols, h3, decide_false, Bool.and_false, Bool.false_xor, e]

theorem drawCols_hit (b : Byte) (py x0 : Nat) (k c : Nat) (d : Drawing) :
    (drawCols b py x0 c k d).2 = true ↔
      d.2 = true ∨ ∃ x, litCols b py x0 c k py x = true ∧ d.1.pixel py x = true := by
  induction k generalizing c d with
  | zero =>
    simp only [drawCols, litCols, Bool.and_eq_true, decide_eq_true_eq]
    constructor
    · exact Or.inl
    · rintro (h | ⟨x, ⟨h, -⟩, -⟩)
      · exact h
      · omega
  | succ k ih =>
    rw [drawCols, ih, drawPixel_hit]
    simp only [drawPixel_pixel, litCols, Bool.or_eq_true, Bool.and_eq_true, decide_eq_true_eq, true_and]
    constructor
    · rintro ((h | ⟨⟨hb, hg⟩, hp⟩) | ⟨x, ⟨hx, hb⟩, hp⟩)
      · exact Or.inl h
      · exact Or.inr ⟨x0 + c, ⟨by omega, by simpa using hb⟩, hp⟩
      · refine Or.inr ⟨x, ⟨by omega, hb⟩, ?_⟩
        have : ¬ (x = x0 + c ∧ py < 32 ∧ x0 + c < 64) := by omega
        simpa only [this, decide_false, Bool.and_false, Bool.xor_false] using hp
    · rintro (h | ⟨x, ⟨hx, hb⟩, hp⟩)
      · exact Or.inl (Or.inl h)
      · by_cases hxc : x = x0 + c
        · subst hxc
          exact Or.inl (Or.inr ⟨⟨by simpa using hb, by omega⟩, hp⟩)
        · refine Or.inr ⟨x, ⟨by omega, hb⟩, ?_⟩
          have : ¬ (x = x0 + c ∧ py < 32 ∧ x0 + c < 64) := by omega
          simpa only [this, decide_false, Bool.and_false, Bool.xor_false] using hp

/-- Whether a sprite of the given rows, drawn from row `py` and column `x0` on, lights pixel `(y, x)` of
the grid. -/
def litRows (x0 : Nat) (bs : List Byte) (py y x : Nat) : Bool :=
  decide (py ≤ y ∧ x0 ≤ x ∧ x < x0 + 8 ∧ y < 32 ∧ x < 64) &&
    (bs[y - py]?.map fun b => spriteBit Config.spriteMsbLeft b (x - x0)).getD false

theorem litRows_cons (x0 : Nat) (b : Byte) (bs : List Byte) (py y x : Nat) :
    litRows x0 (b :: bs) py y x = (litCols b py x0 0 8 y x ^^ litRows x0 bs (py + 1) y x) := by
  by_cases hy : y = py
  · subst hy
    have h : ¬ (y + 1 ≤ y ∧ x0 ≤ x ∧ x < x0 + 8 ∧ y < 32 ∧ x < 64) := by omega
    simp [litRows, litCols]
  · have h1 : ¬ (y = py ∧ x0 + 0 ≤ x ∧ x < x0 + 0 + 8 ∧ y < 32 ∧ x < 64) := fun g => hy g.1
    by_cases h2 : py ≤ y
    · have e : y - py = (y - (py + 1)) + 1 := by omega
      have e2 : (py ≤ y ∧ x0 ≤ x ∧ x < x0 + 8 ∧ y < 32 ∧ x < 64) ↔
          (py + 1 ≤ y ∧ x0 ≤ x ∧ x < x0 + 8 ∧ y < 32 ∧ x < 64) := by omega
      simp only [litRows, litCols, h1, decide_false, Bool.false_and, Bool.false_xor, e,
        List.getElem?_cons_succ, e2]
    · have h3 : ¬ (py ≤ y ∧ x0 ≤ x ∧ x < x0 + 8 ∧ y < 32 ∧ x < 64) := fun g => h2 g.1
      have h4 : ¬ (py + 1 ≤ y ∧ x0 ≤ x ∧ x < x0 + 8 ∧ y < 32 ∧ x < 64) := by omega
      simp only [litRows, litCols, h1, h3, h4, decide_false, Bool.false_and, Bool.xor_false]

/-- Every pixel after a sprite is drawn: XORed with the sprite's. -/
theorem drawRows_pixel (x0 : Nat) (bs : List Byte) (py : Nat) (d : Drawing) (y x : Nat) :
    (drawRows x0 bs py d).1.pixel y x = (d.1.pixel y x ^^ litRows x0 bs py y x) := by
  induction bs generalizing py d with
  | nil => simp [drawRows, litRows]
  | cons b bs ih => rw [drawRows, ih, drawCols_pixel, litRows_cons, Bool.xor_assoc]

/-- A drawing collides exactly when the sprite lights a pixel that was set. -/
theorem drawRows_hit (x0 : Nat) (bs : List Byte) (py : Nat) (d : Drawing) :
    (drawRows x0 bs py d).2 = true ↔
      d.2 = true ∨ ∃ y x, litRows x0 bs py y x = true ∧ d.1.pixel y x = true := by
  induction bs generalizing py d with
  | nil => simp [drawRows, litRows]
  | cons b bs ih =>
    rw [drawRows, ih, drawCols_hit]
    simp only [drawCols_pixel, litRows_cons]
    have off : ∀ y x, litRows x0 bs (py + 1) y x = true → y ≠ py := by
      intro y x h
      simp only [litRows, Bool.and_eq_true, decide_eq_true_eq] at h
      omega
    have on : ∀ y x, litCols b py x0 0 8 y x = true → y = py := by
      intro y x h
      simp only [litCols, Bool.and_eq_true, decide_eq_true_eq] at h
      exact h.1.1
    have offC : ∀ y x, y ≠ py → litCols b py x0 0 8 y x = false := by
      intro y x h
      by_contra hc
      exact h (on y x (by simpa using hc))
    have offR : ∀ x, litRows x0 bs (py + 1) py x = false := by
      intro x
      by_contra hc
      exact off py x (by simpa using hc) rfl
    constructor
    · rintro ((h | ⟨x, h1, h2⟩) | ⟨y, x, h1, h2⟩)
      · exact Or.inl h
      · exact Or.inr ⟨py, x, by simp [h1, offR], h2⟩
      · have hy := off y x h1
        refine Or.inr ⟨y, x, by simp [h1, offC y x hy], ?_⟩
        simpa [offC y x hy] using h2
    · rintro (h | ⟨y, x, h1, h2⟩)
      · exact Or.inl (Or.inl h)
      · by_cases hy : y = py
        · subst hy
          exact Or.inl (Or.inr ⟨x, by simpa [offR] using h1, h2⟩)
        · refine Or.inr ⟨y, x, by simpa [offC y x hy] using h1, ?_⟩
          simpa [offC y x hy] using h2

end Sys2Proof.Machine
end

