-- ==== Sys2Proof/Laws/Operations.lean ====
section
/-!
SUPPORT. One law for each shared operation of the instructions: the range check, the flag and result
write, the call stack, the keypad operands, byte arithmetic, the timers, the fetch. Provers cite these
and do not unfold the operations.
-/

namespace Sys2Proof.Machine

/-! ## The range check (R61) -/

theorem inRange_iff (a n : Nat) : inRange a n = true ↔ n = 0 ∨ a + n ≤ 4096 := by
  have e : lastAddr a n ≤ 4095 ↔ a + n - 1 ≤ 4095 := Iff.rfl
  rw [inRange, Bool.or_eq_true, beq_iff_eq, decide_eq_true_iff, e]
  omega

theorem withRange_of_inRange {a n : Nat} {r : Result} (h : n = 0 ∨ a + n ≤ 4096) :
    withRange a n r = r := by
  simp [withRange, (inRange_iff a n).2 h]

theorem withRange_of_out {a n : Nat} {r : Result} (hn : n ≠ 0) (h : 4096 < a + n) :
    withRange a n r = .fault (.addressOutOfRange (a + n - 1)) := by
  have : ¬ inRange a n = true := by rw [inRange_iff]; omega
  simp only [withRange, this, Bool.false_eq_true, if_false, raise, lastAddr]

/-- All a range check can do: let the access through, or raise `AddressOutOfRange`. -/
theorem withRange_cases (a n : Nat) (r : Result) :
    ((n = 0 ∨ a + n ≤ 4096) ∧ withRange a n r = r) ∨
      (n ≠ 0 ∧ 4096 < a + n ∧ withRange a n r = .fault (.addressOutOfRange (a + n - 1))) := by
  by_cases h : n = 0 ∨ a + n ≤ 4096
  · exact Or.inl ⟨h, withRange_of_inRange h⟩
  · have h1 : n ≠ 0 := by omega
    have h2 : 4096 < a + n := by omega
    exact Or.inr ⟨h1, h2, withRange_of_out h1 h2⟩

/-! ## Flag and result (R161) -/

@[simp] theorem writeFlagResult_default (x : Reg) (flag : Bool) (r : Byte) (s : State) :
    writeFlagResult Config.vfAlias x flag r s =
      .next ((s.setReg VF (flagByte flag)).setReg x r).advance := rfl

/-- The registers after flag and result are written: the result wins in VF. -/
theorem reg_flagResult (x k : Reg) (f r : Byte) (s : State) :
    (((s.setReg VF f).setReg x r).advance).reg k =
      if k = x then r else if k = VF then f else s.reg k := by
  simp [reg_setReg]

/-! ## Byte arithmetic (R160) -/

theorem addBytes_eq (a b : Byte) : addBytes a b = a + b := by
  apply BitVec.eq_of_toNat_eq; simp [addBytes]

theorem subBytes_eq (a b : Byte) : subBytes a b = a - b := by
  apply BitVec.eq_of_toNat_eq
  have ha := a.isLt
  have hb := b.isLt
  simp only [subBytes, BitVec.toNat_ofInt, BitVec.toNat_sub]
  omega

theorem addBytes_toNat (a b : Byte) : (addBytes a b).toNat = (a.toNat + b.toNat) % 256 := by
  simp [addBytes]

theorem countDown_toNat (b : Byte) : (countDown b).toNat = b.toNat - 1 := by
  by_cases h : b = 0
  · simp [countDown, h]
  · have : b.toNat ≠ 0 := fun e => h (BitVec.eq_of_toNat_eq (by simpa using e))
    have hb := b.isLt
    simp only [countDown, h, if_false, BitVec.toNat_sub]
    simp
    omega

/-! ## The call stack (R26, R131, R133) -/

theorem push_of_full {s : State} (w : Word) (h : s.sp = 16) : s.push w = none := by
  simp [State.push, h]

/-- All a push can do. -/
theorem push_cases (s : State) (w : Word) :
    (s.sp = 16 ∧ s.push w = none) ∨
      ∃ (h : s.sp.val < 16), s.push w =
        some { s with stack := s.stack.set s.sp.val w h, sp := ⟨s.sp.val + 1, by omega⟩ } := by
  by_cases h : s.sp.val < 16
  · exact Or.inr ⟨h, by simp [State.push, h]⟩
  · have : s.sp = 16 := Fin.ext (by have := s.sp.isLt; simp; omega)
    exact Or.inl ⟨this, push_of_full w this⟩

/-- All a pop can do. -/
theorem pop_cases (s : State) :
    (s.sp = 0 ∧ s.pop = none) ∨
      ∃ (h : 0 < s.sp.val), s.pop =
        some (s.stack[s.sp.val - 1], { s with sp := ⟨s.sp.val - 1, by omega⟩ }) := by
  by_cases h : 0 < s.sp.val
  · exact Or.inr ⟨h, by simp [State.pop, h]⟩
  · have h0 : s.sp = 0 := Fin.ext (by simp; omega)
    exact Or.inl ⟨h0, by simp [State.pop, h0]⟩

/-! ## Keypad operands (R240, R243) -/

theorem keyState_of_lt {m : KeyIndexMode} {k : Byte} {keys : Keys} (h : k.toNat < 16) :
    keyState m k keys = .ok (keys[k.toNat]'h) := by
  simp [keyState, h]

theorem keyState_of_ge {k : Byte} {keys : Keys} (h : ¬ k.toNat < 16) :
    keyState Config.keyIndexMode k keys = .error (.keyIndexOutOfRange k) := by
  simp [keyState, h, Config.keyIndexMode]

theorem mem_pressedKeys (keys : Keys) (k : Reg) : k ∈ pressedKeys keys ↔ keys[k.val] = true := by
  simp [pressedKeys]

/-- With no key pressed LD Vx,K finds none. -/
theorem selectKey_none_iff (c : Nat) (keys : Keys) :
    selectKey Config.keySelect c keys = none ↔ ∀ k : Reg, keys[k.val] = false := by
  simp only [selectKey, Config.keySelect, List.head?_eq_none_iff]
  constructor
  · intro h k
    by_contra hk
    have := (mem_pressedKeys keys k).2 (by simpa using hk)
    rw [h] at this
    cases this
  · intro h
    by_contra hne
    obtain ⟨k, hk⟩ := List.exists_mem_of_ne_nil _ hne
    have := (mem_pressedKeys keys k).1 hk
    rw [h k] at this
    cases this

/-- The key LD Vx,K finds is the least pressed one. -/
theorem selectKey_some_iff (c : Nat) (keys : Keys) (k : Reg) :
    selectKey Config.keySelect c keys = some k ↔
      keys[k.val] = true ∧ ∀ j : Reg, j < k → keys[j.val] = false := by
  have hsorted : (pressedKeys keys).Pairwise (· < ·) :=
    (List.pairwise_lt_finRange 16).filter _
  have hmem := mem_pressedKeys keys
  simp only [selectKey, Config.keySelect]
  cases hl : pressedKeys keys with
  | nil =>
    rw [hl] at hmem
    simp only [List.head?_nil, reduceCtorEq, false_iff, not_and]
    intro hk
    have := (hmem k).2 hk
    cases this
  | cons p ps =>
    rw [hl] at hmem hsorted
    have hp : keys[p.val] = true := (hmem p).1 (by simp)
    have hlt : ∀ j ∈ ps, p < j := (List.pairwise_cons.1 hsorted).1
    simp only [List.head?_cons, Option.some.injEq]
    constructor
    · rintro rfl
      refine ⟨hp, fun j hj => ?_⟩
      by_contra hne
      rcases List.mem_cons.1 ((hmem j).2 (by simpa using hne)) with rfl | hj'
      · exact absurd hj (lt_irrefl _)
      · exact absurd (lt_trans hj (hlt j hj')) (lt_irrefl _)
    · rintro ⟨hk, hmin⟩
      rcases List.mem_cons.1 ((hmem k).2 hk) with rfl | hk'
      · rfl
      · have := hmin p (hlt k hk')
        rw [hp] at this
        cases this

@[simp] theorem byteOfReg_toNat (k : Reg) : (byteOfReg k).toNat = k.val := by
  have := k.isLt
  simp only [byteOfReg, BitVec.toNat_ofNat]
  omega

/-! ## Store operands (R203, R204) -/

@[simp] theorem length_bcdDigits (b : Byte) : (bcdDigits b).length = 3 := rfl

@[simp] theorem length_regsTo (s : State) (x : Reg) : (s.regsTo x).length = x.val + 1 := by
  have := x.isLt
  simp [State.regsTo]

theorem getElem_regsTo (s : State) (x k : Reg) (h : k.val < (s.regsTo x).length) :
    (s.regsTo x)[k.val] = s.reg k := by
  simp [State.regsTo, State.reg]

/-! ## The timer phase and the start of a cycle -/

@[simp] theorem byteAt_timerPhase (s : State) (a : Nat) : (timerPhase s).byteAt a = s.byteAt a :=
  byteAt_of_mem_eq (timerPhase_mem s) a

/-! ## The fetch (R63) -/

theorem fetch_of_le {s : State} (h : s.pc.toNat ≤ 4094) :
    fetch s = .ok (wordOfBytes (s.byteAt s.pc.toNat) (s.byteAt (s.pc.toNat + 1))) := by
  have : ¬ s.pc.toNat + 1 > 4095 := by omega
  simp [fetch, this]

theorem fetch_of_gt {s : State} (h : 4094 < s.pc.toNat) :
    fetch s = .error (.addressOutOfRange (s.pc.toNat + 1)) := by
  have : s.pc.toNat + 1 > 4095 := by omega
  simp [fetch, this]

/-- A fetch that succeeds was in range. -/
theorem pc_le_of_fetch {s : State} {w : Word} (h : fetch s = .ok w) : s.pc.toNat ≤ 4094 := by
  by_contra hgt
  rw [fetch_of_gt (by omega)] at h
  cases h

/-- The fetch sees PC and memory only. -/
theorem fetch_congr {s t : State} (hpc : t.pc = s.pc) (hmem : t.mem = s.mem) : fetch t = fetch s := by
  simp [fetch, hpc, State.byteAt, hmem]

/-- A placed word is the next one fetched. -/
theorem fetch_placeWord {s : State} (w : Word) (h : s.mem.wf = true) : fetch (s.placeWord w) = .ok w := by
  have hle : (fetchAddr s).toNat ≤ 4094 := by
    unfold fetchAddr
    split
    · simp
    · omega
  have hb : (bytesOfWord w).length = 2 := rfl
  have h0 := Memory.read_writeBytes_inside (a := (fetchAddr s).toNat) (k := 0) (xs := bytesOfWord w) h
    (by omega) (by omega)
  have h1 := Memory.read_writeBytes_inside (a := (fetchAddr s).toNat) (k := 1) (xs := bytesOfWord w) h
    (by omega) (by omega)
  rw [fetch_of_le (s := s.placeWord w) hle]
  simp only [Nat.add_zero] at h0
  simp only [State.placeWord, State.byteAt, h0, h1]
  exact congrArg _ (wordOfBytes_bytesOfWord w)

end Sys2Proof.Machine
end

