-- ==== Sys2Proof/Laws/Cycle.lean ====
section
/-!
SUPPORT. What a cycle and a step can do, said once (70_reset_and_hazards.md R306), and what the host's
operations leave alone (60_exceptions.md R280 to R283).
-/

namespace Sys2Proof.Machine

theorem thenTimers_eq_next {r : Result} {t : State} :
    thenTimers r = .next t ↔ ∃ u, r = .next u ∧ t = timerPhase u := by
  cases r <;> simp [thenTimers, eq_comm]

theorem thenTimers_eq_fault {r : Result} {f : Fault} : thenTimers r = .fault f ↔ r = .fault f := by
  cases r <;> simp [thenTimers]

theorem thenTimers_eq_refused {r : Result} {f : Refusal} :
    thenTimers r = .refused f ↔ r = .refused f := by
  cases r <;> simp [thenTimers]

theorem cycleBody_of_fetch_error {s : State} {f : Fault} (h : fetch s = .error f) :
    cycleBody s = .fault f := by
  simp [cycleBody, h, raise]

theorem cycleBody_of_decode_error {s : State} {w : Word} {e : DecodeError} (h : fetch s = .ok w)
    (hd : decodeWord Config.decodeStrict w = .error e) : cycleBody s = .fault (.decodeFailure w) := by
  simp [cycleBody, h, hd, raise]

theorem cycleBody_of_decode {s : State} {w : Word} {i : Instr} (h : fetch s = .ok w)
    (hd : decodeWord Config.decodeStrict w = .ok i) : cycleBody s = thenTimers (exec i s) := by
  simp [cycleBody, h, hd]

/-- All a cycle can do: fault at the fetch, fault at decode, or run the decoded instruction and then the
timer phase. -/
theorem cycleBody_cases (s : State) :
    (∃ f, fetch s = .error f ∧ cycleBody s = .fault f) ∨
      (∃ w e, fetch s = .ok w ∧ decodeWord Config.decodeStrict w = .error e ∧
        cycleBody s = .fault (.decodeFailure w)) ∨
      ∃ w i, fetch s = .ok w ∧ decodeWord Config.decodeStrict w = .ok i ∧
        cycleBody s = thenTimers (exec i s) := by
  cases h : fetch s with
  | error f => exact Or.inl ⟨f, rfl, cycleBody_of_fetch_error h⟩
  | ok w =>
    cases hd : decodeWord Config.decodeStrict w with
    | error e => exact Or.inr (Or.inl ⟨w, e, rfl, hd, cycleBody_of_decode_error h hd⟩)
    | ok i => exact Or.inr (Or.inr ⟨w, i, rfl, hd, cycleBody_of_decode h hd⟩)

/-- A cycle that completes ran one instruction to completion and then the timer phase. -/
theorem cycleBody_next_inv {s t : State} (h : cycleBody s = .next t) :
    ∃ w i u, fetch s = .ok w ∧ decodeWord Config.decodeStrict w = .ok i ∧ exec i s = .next u ∧
      t = timerPhase u := by
  rcases cycleBody_cases s with ⟨f, -, hc⟩ | ⟨w, e, -, -, hc⟩ | ⟨w, i, hf, hd, hc⟩
  · rw [hc] at h; cases h
  · rw [hc] at h; cases h
  · rw [hc, thenTimers_eq_next] at h
    obtain ⟨u, hu, ht⟩ := h
    exact ⟨w, i, u, hf, hd, hu, ht⟩

/-! ## The host -/

/-- Everything but KEYS, RF and the model's own fields is as before: all the host can do (R283). -/
structure HostFrame (s t : State) : Prop where
  mem : t.mem = s.mem
  v : t.v = s.v
  i : t.i = s.i
  pc : t.pc = s.pc
  stack : t.stack = s.stack
  sp : t.sp = s.sp
  dt : t.dt = s.dt
  st : t.st = s.st
  fb : t.fb = s.fb

theorem HostFrame.refl (s : State) : HostFrame s s := ⟨rfl, rfl, rfl, rfl, rfl, rfl, rfl, rfl, rfl⟩

theorem HostFrame.trans {s t u : State} (h : HostFrame s t) (g : HostFrame t u) : HostFrame s u :=
  ⟨g.mem.trans h.mem, g.v.trans h.v, g.i.trans h.i, g.pc.trans h.pc, g.stack.trans h.stack,
    g.sp.trans h.sp, g.dt.trans h.dt, g.st.trans h.st, g.fb.trans h.fb⟩

theorem hostFrame_apply (o : HostOp) (s : State) : HostFrame s (o.apply s) := by
  cases o <;> exact ⟨rfl, rfl, rfl, rfl, rfl, rfl, rfl, rfl, rfl⟩

theorem hostFrame_applyOps (os : List HostOp) (s : State) : HostFrame s (applyOps os s) := by
  induction os generalizing s with
  | nil => exact HostFrame.refl s
  | cons o os ih => exact (hostFrame_apply o s).trans (ih (o.apply s))

theorem hostFrame_beginCycle (r : Option Byte) (c : Bool) (s : State) :
    HostFrame s (beginCycle r c s) := ⟨rfl, rfl, rfl, rfl, rfl, rfl, rfl, rfl, rfl⟩

/-- What the host does before a cycle leaves the program's machine alone. -/
theorem hostFrame_hostPhase (s : State) : HostFrame s (hostPhase s) := by
  unfold hostPhase
  cases s.script with
  | nil => exact hostFrame_beginCycle _ _ s
  | cons c cs =>
    have h : HostFrame s (State.mk s.mem s.v s.i s.pc s.stack s.sp s.dt s.st s.keys s.fb s.rf cs s.rnd
      s.tick s.cycles s.audioTick) := ⟨rfl, rfl, rfl, rfl, rfl, rfl, rfl, rfl, rfl⟩
    exact (h.trans (hostFrame_applyOps c.ops _)).trans (hostFrame_beginCycle _ _ _)

theorem HostFrame.fetch {s t : State} (h : HostFrame s t) : fetch t = Machine.fetch s :=
  fetch_congr h.pc h.mem

theorem HostFrame.reg {s t : State} (h : HostFrame s t) (k : Reg) : t.reg k = s.reg k :=
  reg_of_v_eq h.v k

/-- A step that completes: the host's part, one instruction, the timer phase. -/
theorem step_next_inv {s t : State} (h : step s = .next t) :
    ∃ w i u, fetch s = .ok w ∧ decodeWord Config.decodeStrict w = .ok i ∧
      exec i (hostPhase s) = .next u ∧ t = timerPhase u := by
  obtain ⟨w, i, u, hf, hd, hu, ht⟩ := cycleBody_next_inv h
  exact ⟨w, i, u, (hostFrame_hostPhase s).fetch ▸ hf, hd, hu, ht⟩

end Sys2Proof.Machine
end

