-- ==== Sys2Proof/Laws/Encoding.lean ====
section
/-!
SUPPORT. The words as the opcode map prints them (`hexWord`, `hexXK`, `hexXYN`) are the packings of their
fields, and the fields of a word as numbers (30_encoding.md R91, R96).
-/

namespace Sys2Proof.Machine

/-! ## Fields as numbers -/

theorem fieldOp_toNat (w : Word) : (fieldOp w).toNat = w.toNat / 0x1000 := by
  have := w.isLt
  simp only [fieldOp, BitVec.extractLsb'_toNat, Nat.shiftRight_eq_div_pow]
  omega

theorem nibbleX_toNat (w : Word) : (nibbleX w).toNat = w.toNat / 0x100 % 16 := by
  simp only [nibbleX, BitVec.extractLsb'_toNat, Nat.shiftRight_eq_div_pow]

theorem nibbleY_toNat (w : Word) : (nibbleY w).toNat = w.toNat / 0x10 % 16 := by
  simp only [nibbleY, BitVec.extractLsb'_toNat, Nat.shiftRight_eq_div_pow]

theorem fieldN_toNat (w : Word) : (fieldN w).toNat = w.toNat % 16 := by
  simp only [fieldN, BitVec.extractLsb'_toNat, Nat.shiftRight_eq_div_pow]
  omega

theorem fieldNN_toNat (w : Word) : (fieldNN w).toNat = w.toNat % 256 := by
  simp only [fieldNN, BitVec.extractLsb'_toNat, Nat.shiftRight_eq_div_pow]
  omega

theorem fieldNNN_toNat (w : Word) : (fieldNNN w).toNat = w.toNat % 4096 := by
  simp only [fieldNNN, BitVec.extractLsb'_toNat, Nat.shiftRight_eq_div_pow]
  omega

theorem hexWord_toNat {op low : Nat} (ho : op < 16) (hl : low < 0x1000) :
    (hexWord op low).toNat = 0x1000 * op + low := by
  simp only [hexWord, BitVec.toNat_ofNat]
  omega

/-! ## Printed words are packed words -/

theorem hexWord_eq_packA {op : Nat} (ho : op < 16) (nnn : Addr) :
    hexWord op nnn.toNat = packA (BitVec.ofNat 4 op) nnn := by
  have hn := nnn.isLt
  have h := hexWord_toNat ho (show nnn.toNat < 0x1000 by omega)
  rw [← packA_fields (hexWord op nnn.toNat)]
  congr 1 <;> apply BitVec.eq_of_toNat_eq
  · rw [fieldOp_toNat, h, BitVec.toNat_ofNat]; omega
  · rw [fieldNNN_toNat, h]; omega

theorem hexZ_eq_packXK {op : Nat} (ho : op < 16) (z : Nibble) {nn : Nat} (hn : nn < 256) :
    hexWord op (0x100 * z.toNat + nn) = packXK (BitVec.ofNat 4 op) z (BitVec.ofNat 8 nn) := by
  have hz := z.isLt
  have h := hexWord_toNat ho (show 0x100 * z.toNat + nn < 0x1000 by omega)
  rw [← packXK_fields (hexWord op (0x100 * z.toNat + nn))]
  congr 1 <;> apply BitVec.eq_of_toNat_eq
  · rw [fieldOp_toNat, h, BitVec.toNat_ofNat]; omega
  · rw [nibbleX_toNat, h]; omega
  · rw [fieldNN_toNat, h, BitVec.toNat_ofNat]; omega

theorem hexXK_eq_packXK {op : Nat} (ho : op < 16) (x : Reg) {nn : Nat} (hn : nn < 256) :
    hexXK op x nn = packXK (BitVec.ofNat 4 op) (nibbleOf x) (BitVec.ofNat 8 nn) :=
  hexZ_eq_packXK ho (nibbleOf x) hn

theorem hexXYN_eq_pack4 {op : Nat} (ho : op < 16) (x y : Reg) {n : Nat} (hn : n < 16) :
    hexXYN op x y n = pack4 (BitVec.ofNat 4 op) (nibbleOf x) (nibbleOf y) (BitVec.ofNat 4 n) := by
  have hx := x.isLt
  have hy := y.isLt
  have h := hexWord_toNat ho (show 0x100 * x.val + (0x10 * y.val + n) < 0x1000 by omega)
  rw [← pack4_fields (hexXYN op x y n)]
  have ex : (nibbleOf x).toNat = x.val := rfl
  have ey : (nibbleOf y).toNat = y.val := rfl
  unfold hexXYN hexXK
  congr 1 <;> apply BitVec.eq_of_toNat_eq
  · rw [fieldOp_toNat, h, BitVec.toNat_ofNat]; omega
  · rw [nibbleX_toNat, h, ex]; omega
  · rw [nibbleY_toNat, h, ey]; omega
  · rw [fieldN_toNat, h, BitVec.toNat_ofNat]; omega

/-- A decode under the default setting is a decode of the two levels alone. -/
theorem decodes_of_loose {w : Word} {i : Instr} (h : decodeLoose w = some i) : Decodes w i := by
  show decodeWord false w = _
  rw [decodeWord_false, h]

end Sys2Proof.Machine
end

