-- ==== Sys2Proof/Laws/Inversion.lean ====
section
/-!
SUPPORT. All that an instruction whose meaning has branches can do when it completes: the state it gives,
said once, so that no claim over all instructions unfolds a meaning or splits a range check again. Every
other instruction completes on every state with the state its meaning writes, so `cases` on
`exec i s = .next t` gives that state.
-/

namespace Sys2Proof.Machine

variable {s t : State}

/-- A range-checked instruction that completes passed the check. -/
theorem withRange_next_inv {a n : Nat} {u : State} (h : withRange a n (.next u) = .next t) :
    (n = 0 ∨ a + n ≤ 4096) ∧ t = u := by
  rcases withRange_cases a n (.next u) with ⟨hr, he⟩ | ⟨-, -, he⟩ <;> rw [he] at h <;> cases h
  exact ⟨hr, rfl⟩

/-- A range-checked instruction that faults raised the check's fault. -/
theorem withRange_fault_inv {a n : Nat} {u : State} {f : Fault} (h : withRange a n (.next u) = .fault f) :
    n ≠ 0 ∧ 4096 < a + n ∧ f = .addressOutOfRange (a + n - 1) := by
  rcases withRange_cases a n (.next u) with ⟨-, he⟩ | ⟨hn, ho, he⟩ <;> rw [he] at h <;> cases h
  exact ⟨hn, ho, rfl⟩

theorem ret_next_inv {z : Nibble} (h : exec (.ret z) s = .next t) :
    ∃ _ : 0 < s.sp.val, t = State.setPc { s with sp := ⟨s.sp.val - 1, by omega⟩ }
      (s.stack[s.sp.val - 1] + 2) := by
  rcases pop_cases s with ⟨-, hp⟩ | ⟨hs, hp⟩ <;> simp [exec, execRet, hp, raise] at h
  exact ⟨hs, h.symm⟩

theorem call_next_inv {a : Addr} (h : exec (.call a) s = .next t) :
    ∃ _ : s.sp.val < 16, t = State.setPc
      { s with stack := s.stack.set s.sp.val s.pc, sp := ⟨s.sp.val + 1, by omega⟩ } (zext16 a) := by
  rcases push_cases s s.pc with ⟨-, hp⟩ | ⟨hs, hp⟩ <;> simp [exec, execCall, hp, raise] at h
  exact ⟨hs, h.symm⟩

theorem skp_next_inv {x : Reg} (h : exec (.skp x) s = .next t) :
    ∃ b, keyState Config.keyIndexMode (s.reg x) s.keys = .ok b ∧ t = s.skipIf b := by
  simp only [exec, execSkp] at h
  split at h <;> cases h
  exact ⟨_, ‹_›, rfl⟩

theorem sknp_next_inv {x : Reg} (h : exec (.sknp x) s = .next t) :
    ∃ b, keyState Config.keyIndexMode (s.reg x) s.keys = .ok b ∧ t = s.skipIf (!b) := by
  simp only [exec, execSknp] at h
  split at h <;> cases h
  exact ⟨_, ‹_›, rfl⟩

theorem ldVxK_next_inv {x : Reg} (h : exec (.ldVxK x) s = .next t) :
    (t = s ∧ ∀ k : Reg, s.keys[k.val] = false) ∨
      ∃ k : Reg, s.keys[k.val] = true ∧ t = (s.setReg x (byteOfReg k)).advance := by
  simp only [exec, execLdVxK] at h
  split at h <;> cases h
  · exact Or.inl ⟨rfl, (selectKey_none_iff _ _).1 ‹_›⟩
  · exact Or.inr ⟨_, ((selectKey_some_iff _ _ _).1 ‹_›).1, rfl⟩

/-- No instruction writes the host's side of the state: KEYS and the model's own fields (R32, R283). -/
theorem exec_keeps_host {i : Instr} (h : exec i s = .next t) :
    t.keys = s.keys ∧ t.script = s.script ∧ t.rnd = s.rnd ∧ t.tick = s.tick ∧ t.cycles = s.cycles ∧
      t.audioTick = s.audioTick := by
  cases i
  case ret z => obtain ⟨_, rfl⟩ := ret_next_inv h; simp
  case call a => obtain ⟨_, rfl⟩ := call_next_inv h; simp
  case skp x => obtain ⟨_, -, rfl⟩ := skp_next_inv h; simp
  case sknp x => obtain ⟨_, -, rfl⟩ := sknp_next_inv h; simp
  case ldVxK x => obtain ⟨rfl, -⟩ | ⟨_, -, rfl⟩ := ldVxK_next_inv h <;> simp
  case ldB x => obtain ⟨-, rfl⟩ := withRange_next_inv h; simp
  case storeRegs x => obtain ⟨-, rfl⟩ := withRange_next_inv h; simp
  case loadRegs x => obtain ⟨-, rfl⟩ := withRange_next_inv h; simp
  case drw x y n => obtain ⟨-, rfl⟩ := withRange_next_inv h; simp
  all_goals (cases h; simp)

end Sys2Proof.Machine
end

