-- ==== Sys2Proof/Laws/PerInstr.lean ====
section
/-!
SUPPORT. Per-instruction laws. Family `TableRow`: the word an instruction encodes to selects the
instruction's row of the opcode map (30_encoding.md R96), whatever its operands.
-/

namespace Sys2Proof.Laws.TableRow

/-- The encoded word masked with the row's mask is the row's match. -/
def Statement (i : Instr) : Prop := selectsRow (encode i) i

theorem cls (z : Nibble) : Statement (.cls z) :=
  (packXK_maskSel ..).trans rfl
theorem ret (z : Nibble) : Statement (.ret z) :=
  (packXK_maskSel ..).trans rfl
theorem jp (nnn : Addr) : Statement (.jp nnn) :=
  (packA_mask ..).trans rfl
theorem call (nnn : Addr) : Statement (.call nnn) :=
  (packA_mask ..).trans rfl
theorem seImm (x : Reg) (nn : Byte) : Statement (.seImm x nn) :=
  (packXK_mask ..).trans rfl
theorem sneImm (x : Reg) (nn : Byte) : Statement (.sneImm x nn) :=
  (packXK_mask ..).trans rfl
theorem seReg (x y : Reg) (n : Nibble) : Statement (.seReg x y n) :=
  (pack4_mask ..).trans rfl
theorem ldImm (x : Reg) (nn : Byte) : Statement (.ldImm x nn) :=
  (packXK_mask ..).trans rfl
theorem addImm (x : Reg) (nn : Byte) : Statement (.addImm x nn) :=
  (packXK_mask ..).trans rfl
theorem ldReg (x y : Reg) : Statement (.ldReg x y) :=
  (pack4_maskSel ..).trans rfl
theorem orReg (x y : Reg) : Statement (.orReg x y) :=
  (pack4_maskSel ..).trans rfl
theorem andReg (x y : Reg) : Statement (.andReg x y) :=
  (pack4_maskSel ..).trans rfl
theorem xorReg (x y : Reg) : Statement (.xorReg x y) :=
  (pack4_maskSel ..).trans rfl
theorem addReg (x y : Reg) : Statement (.addReg x y) :=
  (pack4_maskSel ..).trans rfl
theorem subReg (x y : Reg) : Statement (.subReg x y) :=
  (pack4_maskSel ..).trans rfl
theorem shr (x y : Reg) : Statement (.shr x y) :=
  (pack4_maskSel ..).trans rfl
theorem subnReg (x y : Reg) : Statement (.subnReg x y) :=
  (pack4_maskSel ..).trans rfl
theorem shl (x y : Reg) : Statement (.shl x y) :=
  (pack4_maskSel ..).trans rfl
theorem sneReg (x y : Reg) (n : Nibble) : Statement (.sneReg x y n) :=
  (pack4_mask ..).trans rfl
theorem ldI (nnn : Addr) : Statement (.ldI nnn) :=
  (packA_mask ..).trans rfl
theorem jpV0 (nnn : Addr) : Statement (.jpV0 nnn) :=
  (packA_mask ..).trans rfl
theorem rnd (x : Reg) (nn : Byte) : Statement (.rnd x nn) :=
  (packXK_mask ..).trans rfl
theorem drw (x y : Reg) (n : Nibble) : Statement (.drw x y n) :=
  (pack4_mask ..).trans rfl
theorem skp (x : Reg) : Statement (.skp x) :=
  (packXK_maskSel ..).trans rfl
theorem sknp (x : Reg) : Statement (.sknp x) :=
  (packXK_maskSel ..).trans rfl
theorem ldVxDt (x : Reg) : Statement (.ldVxDt x) :=
  (packXK_maskSel ..).trans rfl
theorem ldVxK (x : Reg) : Statement (.ldVxK x) :=
  (packXK_maskSel ..).trans rfl
theorem ldDtVx (x : Reg) : Statement (.ldDtVx x) :=
  (packXK_maskSel ..).trans rfl
theorem ldStVx (x : Reg) : Statement (.ldStVx x) :=
  (packXK_maskSel ..).trans rfl
theorem addIVx (x : Reg) : Statement (.addIVx x) :=
  (packXK_maskSel ..).trans rfl
theorem ldF (x : Reg) : Statement (.ldF x) :=
  (packXK_maskSel ..).trans rfl
theorem ldB (x : Reg) : Statement (.ldB x) :=
  (packXK_maskSel ..).trans rfl
theorem storeRegs (x : Reg) : Statement (.storeRegs x) :=
  (packXK_maskSel ..).trans rfl
theorem loadRegs (x : Reg) : Statement (.loadRegs x) :=
  (packXK_maskSel ..).trans rfl

/-- Every instruction's word selects its row. -/
theorem every (i : Instr) : Statement i :=
  match i with
  | .cls z => cls z
  | .ret z => ret z
  | .jp nnn => jp nnn
  | .call nnn => call nnn
  | .seImm x nn => seImm x nn
  | .sneImm x nn => sneImm x nn
  | .seReg x y n => seReg x y n
  | .ldImm x nn => ldImm x nn
  | .addImm x nn => addImm x nn
  | .ldReg x y => ldReg x y
  | .orReg x y => orReg x y
  | .andReg x y => andReg x y
  | .xorReg x y => xorReg x y
  | .addReg x y => addReg x y
  | .subReg x y => subReg x y
  | .shr x y => shr x y
  | .subnReg x y => subnReg x y
  | .shl x y => shl x y
  | .sneReg x y n => sneReg x y n
  | .ldI nnn => ldI nnn
  | .jpV0 nnn => jpV0 nnn
  | .rnd x nn => rnd x nn
  | .drw x y n => drw x y n
  | .skp x => skp x
  | .sknp x => sknp x
  | .ldVxDt x => ldVxDt x
  | .ldVxK x => ldVxK x
  | .ldDtVx x => ldDtVx x
  | .ldStVx x => ldStVx x
  | .addIVx x => addIVx x
  | .ldF x => ldF x
  | .ldB x => ldB x
  | .storeRegs x => storeRegs x
  | .loadRegs x => loadRegs x

end Sys2Proof.Laws.TableRow
end

