-- ==== Sys2Proof/Tests/Slice0.lean ====
section
/-!
SUPPORT. The model's own tests: the well-formedness smoke, the decoding of every row of the opcode map
from a word written out bit by bit (30_encoding.md R92, R96), one step of the machine on vectors of
95_test_vectors.md (the vector's name stands in each comment), and witnesses for the hypotheses of the
statements. Every expected value comes from spec/.
-/

namespace Sys2Proof.Tests

open Sys2Proof.Machine

/-! ## Well-formedness: one ill-formed term for each check (R95 (a), (b)) -/

theorem test_strict_refuses_cls_nibble : (Instr.cls 1).wellFormedWith true = false := by decide
theorem test_strict_refuses_ret_nibble : (Instr.ret 15).wellFormedWith true = false := by decide
theorem test_strict_refuses_seReg_nibble : (Instr.seReg 1 2 7).wellFormedWith true = false := by decide
theorem test_strict_refuses_sneReg_nibble : (Instr.sneReg 1 2 15).wellFormedWith true = false := by decide
theorem test_strict_admits_shift_field : (Instr.shr 1 2).wellFormedWith true = true := by decide
theorem test_default_ignores_nibbles :
    (Instr.cls 1).wellFormed = true ∧ (Instr.ret 15).wellFormed = true ∧
      (Instr.seReg 1 2 7).wellFormed = true ∧ (Instr.sneReg 1 2 15).wellFormed = true := by decide

/-! ## Decoding: every row of R96, each word written out from its pattern -/

theorem test_decode_control :
    decodeTableWord 16 0b0000101011101110 = some (.ret 10) ∧        -- 0_EE
    decodeTableWord 16 0b0001001000110100 = some (.jp 0x234) ∧      -- 1NNN
    decodeTableWord 16 0b0010111100000001 = some (.call 0xF01) ∧    -- 2NNN
    decodeTableWord 16 0b0011101001000010 = some (.seImm 10 0x42) ∧ -- 3XNN
    decodeTableWord 16 0b0100101001000010 = some (.sneImm 10 0x42) ∧ -- 4XNN
    decodeTableWord 16 0b0101101010110111 = some (.seReg 10 11 7) ∧ -- 5XY_
    decodeTableWord 16 0b1001000100101111 = some (.sneReg 1 2 15) ∧ -- 9XY_
    decodeTableWord 16 0b1011001100000000 = some (.jpV0 0x300) := by decide -- BNNN

theorem test_decode_alu :
    decodeTableWord 16 0b0110000000000101 = some (.ldImm 0 5) ∧     -- 6XNN
    decodeTableWord 16 0b0111000111111111 = some (.addImm 1 0xFF) ∧ -- 7XNN
    decodeTableWord 16 0b1000001000110000 = some (.ldReg 2 3) ∧     -- 8XY0
    decodeTableWord 16 0b1000001000110001 = some (.orReg 2 3) ∧     -- 8XY1
    decodeTableWord 16 0b1000001000110010 = some (.andReg 2 3) ∧    -- 8XY2
    decodeTableWord 16 0b1000001000110011 = some (.xorReg 2 3) ∧    -- 8XY3
    decodeTableWord 16 0b1000000000010100 = some (.addReg 0 1) ∧    -- 8XY4
    decodeTableWord 16 0b1000001000110101 = some (.subReg 2 3) ∧    -- 8XY5
    decodeTableWord 16 0b1000001000110110 = some (.shr 2 3) ∧       -- 8XY6
    decodeTableWord 16 0b1000001000110111 = some (.subnReg 2 3) ∧   -- 8XY7
    decodeTableWord 16 0b1000001000111110 = some (.shl 2 3) ∧       -- 8XYE
    decodeTableWord 16 0b1100001100001111 = some (.rnd 3 0x0F) := by decide -- CXNN

theorem test_decode_index_memory :
    decodeTableWord 16 0b1010001100000000 = some (.ldI 0x300) ∧     -- ANNN
    decodeTableWord 16 0b1111000100011110 = some (.addIVx 1) ∧      -- FX1E
    decodeTableWord 16 0b1111010000101001 = some (.ldF 4) ∧         -- FX29
    decodeTableWord 16 0b1111000000110011 = some (.ldB 0) ∧         -- FX33
    decodeTableWord 16 0b1111001001010101 = some (.storeRegs 2) ∧   -- FX55
    decodeTableWord 16 0b1111111101100101 = some (.loadRegs 15) := by decide -- FX65

theorem test_decode_display_keypad_timers :
    decodeTableWord 16 0b0000101011100000 = some (.cls 10) ∧        -- 0_E0
    decodeTableWord 16 0b1101000100100101 = some (.drw 1 2 5) ∧     -- DXYN
    decodeTableWord 16 0b1110001010011110 = some (.skp 2) ∧         -- EX9E
    decodeTableWord 16 0b1110001010100001 = some (.sknp 2) ∧        -- EXA1
    decodeTableWord 16 0b1111000100000111 = some (.ldVxDt 1) ∧      -- FX07
    decodeTableWord 16 0b1111001000001010 = some (.ldVxK 2) ∧       -- FX0A
    decodeTableWord 16 0b1111001100010101 = some (.ldDtVx 3) ∧      -- FX15
    decodeTableWord 16 0b1111010000011000 = some (.ldStVx 4) := by decide -- FX18

/-- DE1, DE5, DE6, DE10, DE11, DE13, DE15, DE16, DE19 of 95_test_vectors.md. -/
theorem test_decode_failures :
    [0x0000, 0x00E1, 0x0123, 0x8128, 0x812F, 0xE19F, 0xF100, 0xF175, 0xFFFF].map (decodeTableWord 16) =
      List.replicate 9 none := by decide

theorem test_decodeBytes_leaves_the_rest :
    (decodeBytes [0x60, 0x05, 0x61, 0x03]).toOption = some (.ldImm 0 5, [0x61, 0x03]) := by decide
theorem test_decodeBytes_truncated : (decodeBytes [0x60]).toOption = none := by decide

/-! ## One step -/

/-- The reset state with a word at PC and preparations made. -/
def start (w : Word) (prepare : State → State) : State := (prepare State.reset).placeWord w

/-- What a field holds after one step, none where the step stops. -/
def after {α : Type} (field : State → α) (s : State) : Option α :=
  match step s with
  | .next t => some (field t)
  | .fault _ => none
  | .refused _ => none

/-- Registers of a state by number. -/
def regsAt (ks : List Reg) (t : State) : List Nat := ks.map fun k => (t.reg k).toNat

/-- Bytes of memory of a state by address. -/
def bytesOf (as : List Nat) (t : State) : List Nat := as.map fun a => (t.byteAt a).toNat

/-- A state with the pixels of a list set. -/
def withPixels (ps : List (Nat × Nat)) (s : State) : State :=
  { s with fb := ps.foldl (fun g p => g.setPixel p.1 p.2 true) s.fb }

/-- The pixels of some rows that are set, as pairs of row and column. -/
def litIn (rows : List Nat) (t : State) : List (Nat × Nat) :=
  rows.flatMap fun y => ((List.range 64).filter fun x => t.fb.pixel y x).map fun x => (y, x)

/-- Some keys pressed. -/
def withKeys (ks : List Nat) (s : State) : State := s.setKeys (Vector.ofFn fun k => decide (k.val ∈ ks))

/-- A call stack of depth `n` with a word in every slot. -/
def withStack (w : Word) (n : Fin 17) (s : State) : State := { s with stack := Vector.replicate 16 w, sp := n }

/-! ### Control transfer -/

/-- CF1. -/
theorem test_ret : after (fun t => (t.pc, t.sp))
    (start 0x00EE fun s => (withStack 0x204 1 s).setPc 0x214) = some (0x206, 0) := by decide
/-- CF2. -/
theorem test_ret_empty : step (start 0x00EE id) = .fault (.stackUnderflow 0x200) := by rfl
/-- CF3. -/
theorem test_jp : after (·.pc) (start 0x1FFF id) = some 0xFFF := by decide
/-- CF5. -/
theorem test_call : after (fun t => (t.pc, t.sp, t.stack[15], t.stack[14]))
    (start 0x2300 fun s => (withStack 0x111 15 s).setPc 0x250) = some (0x300, 16, 0x250, 0x111) := by decide
/-- CF6. -/
theorem test_call_full :
    step (start 0x2300 fun s => (withStack 0x111 16 s).setPc 0x250) = .fault (.stackOverflow 0x250) := by rfl
/-- CF7. -/
theorem test_seImm : after (·.pc) (start 0x3A42 (·.setReg 10 0x42)) = some 0x204 := by decide
/-- CF8. -/
theorem test_seImm_not : after (·.pc) (start 0x3A42 (·.setReg 10 0x43)) = some 0x202 := by decide
/-- CF9. -/
theorem test_sneImm_not : after (·.pc) (start 0x4A42 (·.setReg 10 0x42)) = some 0x202 := by decide
/-- CF10. -/
theorem test_sneImm : after (·.pc) (start 0x4A42 (·.setReg 10 0x43)) = some 0x204 := by decide
/-- CF11. -/
theorem test_seReg : after (·.pc)
    (start 0x5AB0 fun s => (s.setReg 10 9).setReg 11 9) = some 0x204 := by decide
/-- CF12. -/
theorem test_seReg_not : after (·.pc)
    (start 0x5AB7 fun s => (s.setReg 10 9).setReg 11 8) = some 0x202 := by decide
/-- CF13. -/
theorem test_sneReg : after (·.pc)
    (start 0x9AB0 fun s => (s.setReg 10 9).setReg 11 8) = some 0x204 := by decide
/-- CF14. -/
theorem test_sneReg_not : after (·.pc) (start 0x9AA0 (·.setReg 10 9)) = some 0x202 := by decide
/-- CF15. -/
theorem test_jpV0 : after (·.pc) (start 0xB300 (·.setReg 0 4)) = some 0x304 := by decide
/-- CF16. -/
theorem test_jpV0_no_wrap : after (·.pc) (start 0xBFFF (·.setReg 0 0xFF)) = some 0x10FE := by decide

/-! ### Arithmetic and logic -/

/-- AL1. -/
theorem test_ldImm : after (regsAt [15]) (start 0x6F12 id) = some [0x12] := by decide
/-- AL3. -/
theorem test_addImm : after (regsAt [0, 15])
    (start 0x7002 fun s => (s.setReg 0 0xFF).setReg 15 7) = some [1, 7] := by decide
/-- AL4. -/
theorem test_ldReg : after (regsAt [2, 3, 15])
    (start 0x8230 fun s => (s.setReg 3 9).setReg 15 5) = some [9, 9, 5] := by decide
/-- AL5. -/
theorem test_orReg : after (regsAt [0, 15])
    (start 0x8011 fun s => ((s.setReg 0 0x0F).setReg 1 0xF0).setReg 15 5) = some [0xFF, 5] := by decide
/-- AL6. -/
theorem test_andReg : after (regsAt [0, 15])
    (start 0x8012 fun s => ((s.setReg 0 0x3C).setReg 1 0x0F).setReg 15 5) = some [0x0C, 5] := by decide
/-- AL7. -/
theorem test_xorReg : after (regsAt [0, 15])
    (start 0x8013 fun s => ((s.setReg 0 0xFF).setReg 1 0x0F).setReg 15 5) = some [0xF0, 5] := by decide
/-- AL9. -/
theorem test_addReg : after (regsAt [0, 1, 15])
    (start 0x8014 fun s => (s.setReg 0 0xFF).setReg 1 1) = some [0, 1, 1] := by decide
/-- AL13: the result overwrites the flag. -/
theorem test_addReg_vf : after (regsAt [15])
    (start 0x8F14 fun s => (s.setReg 15 200).setReg 1 100) = some [44] := by decide
/-- AL15. -/
theorem test_subReg : after (regsAt [0, 1, 15])
    (start 0x8015 fun s => (s.setReg 0 3).setReg 1 5) = some [0xFE, 5, 0] := by decide
/-- AL16: equal operands do not borrow. -/
theorem test_subReg_equal : after (regsAt [0, 15])
    (start 0x8015 fun s => (s.setReg 0 5).setReg 1 5) = some [0, 1] := by decide
/-- AL20. -/
theorem test_subnReg : after (regsAt [0, 1, 15])
    (start 0x8017 fun s => (s.setReg 0 3).setReg 1 5) = some [2, 5, 1] := by decide
/-- AL21. -/
theorem test_subnReg_borrow : after (regsAt [0, 15])
    (start 0x8017 fun s => (s.setReg 0 5).setReg 1 3) = some [0xFE, 0] := by decide
/-- AL23: V[x] is shifted, not V[y]. -/
theorem test_shr : after (regsAt [2, 15, 0])
    (start 0x8206 fun s => (s.setReg 2 0x05).setReg 0 0xAA) = some [0x02, 1, 0xAA] := by decide
/-- AL25. -/
theorem test_shr_vf : after (regsAt [15]) (start 0x8F06 (·.setReg 15 0x07)) = some [0x03] := by decide
/-- AL26. -/
theorem test_shl : after (regsAt [2, 15]) (start 0x820E (·.setReg 2 0x81)) = some [0x02, 1] := by decide
/-- AL28. -/
theorem test_shl_vf : after (regsAt [15]) (start 0x8F0E (·.setReg 15 0xC1)) = some [0x82] := by decide
/-- AL29: the host's byte, through the script. -/
theorem test_rnd : after (regsAt [3])
    (start 0xC30F fun s => { s with script := [⟨[], some 0xA7, true⟩] }) = some [0x07] := by decide
/-- AL30: bits where nn is 0 are 0, whatever the free value. -/
theorem test_rnd_zero : (execRnd 3 0 (State.reset.setReg 3 0x55)) =
    .next ((State.reset.setReg 3 0).advance) := by
  simp [execRnd, State.setReg]

/-! ### Index register and memory -/

/-- IM1. -/
theorem test_ldI : after (·.i) (start 0xAFFF id) = some 0x0FFF := by decide
/-- IM2. -/
theorem test_addIVx : after (fun t => (t.i, regsAt [15] t))
    (start 0xF11E fun s => ((s.setI 0x0FFF).setReg 1 2).setReg 15 9) = some (0x1001, [9]) := by decide
/-- IM3. -/
theorem test_addIVx_wraps : after (·.i)
    (start 0xF11E fun s => (s.setI 0xFFFF).setReg 1 2) = some 1 := by decide
/-- IM4. -/
theorem test_ldF : after (·.i) (start 0xF429 (·.setReg 4 0x0A)) = some 0x32 := by decide
/-- IM5. -/
theorem test_ldF_no_mask : after (·.i) (start 0xF429 (·.setReg 4 0xFF)) = some 0x4FB := by decide
/-- IM6. -/
theorem test_ldB : after (fun t => (bytesOf [0x300, 0x301, 0x302] t, t.i))
    (start 0xF033 fun s => (s.setReg 0 156).setI 0x300) = some ([1, 5, 6], 0x300) := by decide
/-- IM9. -/
theorem test_ldB_out : step (start 0xF033 fun s => (s.setReg 0 9).setI 0xFFE) =
    .fault (.addressOutOfRange 0x1000) := by rfl
/-- IM10. -/
theorem test_storeRegs : after (fun t => (bytesOf [0x300, 0x301, 0x302, 0x303] t, t.i))
    (start 0xF255 fun s => (((s.setReg 0 1).setReg 1 2).setReg 2 3 |>.setReg 3 4).setI 0x300) =
      some ([1, 2, 3, 0], 0x300) := by decide
/-- IM12. -/
theorem test_storeRegs_out : step (start 0xF155 fun s => ((s.setReg 0 0x77).setReg 1 0x88).setI 0xFFF) =
    .fault (.addressOutOfRange 0x1000) := by rfl
/-- IM13. -/
theorem test_loadRegs : after (fun t => (regsAt [0, 1, 2] t, t.i))
    (start 0xF165 fun s => ((s.storeBytes 0x300 [0xAA, 0xBB, 0xCC]).setReg 2 5).setI 0x300) =
      some ([0xAA, 0xBB, 5], 0x300) := by decide
/-- IM14. -/
theorem test_loadRegs_out : step (start 0xFF65 (·.setI 0xFF1)) = .fault (.addressOutOfRange 0x1000) := by rfl

/-! ### Display -/

/-- DR11. -/
theorem test_cls : after (fun t => (litIn [3] t, t.rf, regsAt [15] t))
    (start 0x00E0 fun s => (withPixels [(3, 3)] s).setReg 15 1) = some ([], true, [1]) := by decide
/-- DR4: clipping at the right and the lower edge. -/
theorem test_drw_clips : after (fun t => (litIn [0, 30, 31] t, regsAt [15] t))
    (start 0xD012 fun s => ((s.storeBytes 0x300 [0xFF, 0xFF]).setReg 0 60 |>.setReg 1 31).setI 0x300) =
      some ([(31, 60), (31, 61), (31, 62), (31, 63)], [0]) := by decide
/-- DR3: collision; bit 7 is the leftmost column. -/
theorem test_drw_collides : after (fun t => (litIn [0] t, regsAt [15] t, t.rf))
    (start 0xD011 fun s => (withPixels [(0, 3), (0, 4)] (s.storeBytes 0x300 [0xF0])).setI 0x300) =
      some ([(0, 0), (0, 1), (0, 2), (0, 4)], [1], true) := by decide

/-! ### Keypad and timers -/

/-- KT1. -/
theorem test_skp : after (·.pc)
    (start 0xE29E fun s => (withKeys [7] (s.setReg 2 7)).setPc 0x208) = some 0x20C := by decide
/-- KT5. -/
theorem test_skp_out : step (start 0xE29E fun s => withKeys [0] (s.setReg 2 16)) =
    .fault (.keyIndexOutOfRange 16) := by rfl
/-- KT3. -/
theorem test_sknp : after (·.pc)
    (start 0xE2A1 fun s => (withKeys [7] (s.setReg 2 7)).setPc 0x208) = some 0x20A := by decide
/-- KT4. -/
theorem test_sknp_up : after (·.pc) (start 0xE2A1 fun s => (s.setReg 2 7).setPc 0x208) = some 0x20C := by decide
/-- KT6: read before this cycle's timer phase. -/
theorem test_ldVxDt : after (fun t => (regsAt [1] t, t.dt)) (start 0xF107 (·.setDt 2)) = some ([2], 1) := by decide
/-- KT8: PC does not advance, the timers run. -/
theorem test_ldVxK_waits : after (fun t => (t.pc, regsAt [2] t, t.dt))
    (start 0xF20A fun s => (s.setReg 2 0x33).setDt 5) = some (0x200, [0x33], 4) := by decide
/-- KT9. -/
theorem test_ldVxK_lowest : after (fun t => (t.pc, regsAt [2] t))
    (start 0xF20A (withKeys [3, 9, 12])) = some (0x202, [3]) := by decide
/-- KT10. -/
theorem test_ldDtVx : after (fun t => (t.dt, t.st)) (start 0xF015 (·.setReg 0 3)) = some (2, 0) := by decide
/-- KT12. -/
theorem test_ldStVx : after (fun t => (t.st, t.audioTick)) (start 0xF018 (·.setReg 0 1)) = some (0, true) := by decide
/-- KT13. -/
theorem test_ldStVx_later : after (fun t => (t.st, t.audioTick)) (start 0xF018 (·.setReg 0 2)) =
    some (1, false) := by decide

/-! ### Fetch, cycle, reset -/

/-- CF19. -/
theorem test_fetch_out : step (State.reset.setPc 0xFFF) = .fault (.addressOutOfRange 0x1000) := by rfl
/-- CF20: an odd PC. -/
theorem test_fetch_odd : after (fun t => (regsAt [10] t, t.pc)) (start 0x6AFF (·.setPc 0x201)) =
    some ([0xFF], 0x203) := by decide
/-- KT16: no timer phase in a cycle with `tick = 0`. -/
theorem test_cycle_without_tick : (cycle 0 false (start 0x6000 (·.setSt 1))).2 = .completed false ∧
    (cycle 0 false (start 0x6000 (·.setSt 1))).1.st = 1 := by decide
/-- KT14. -/
theorem test_cycle_audio : (cycle 0 true (start 0x6000 (·.setSt 1))).2 = .completed true ∧
    (cycle 0 true (start 0x6000 (·.setSt 1))).1.st = 0 := by decide
/-- R264, FA1: the same fault again, and nothing changed. -/
theorem test_cycle_fault : cycle 0 true (start 0x00EE (·.setDt 9)) =
    (start 0x00EE (·.setDt 9), .faulted (.stackUnderflow 0x200)) := by decide
/-- R302: an empty program is accepted, and its first cycle takes `DecodeFailure(0x0000)` (R97). -/
theorem test_construct_empty : (construct (List.replicate 80 0) []).toOption.map step =
    some (.fault (.decodeFailure 0)) := by rfl
/-- P1: the image of the source's scenario. -/
theorem test_construct_scenario :
    (construct (List.replicate 80 0) [0x60, 0x05, 0x61, 0x03, 0x80, 0x14]).toOption.map
      (bytesOf [511, 512, 513, 516, 517, 518]) = some [0, 0x60, 0x05, 0x80, 0x14, 0] := by decide
/-- The host's interface of the decoder and the fetch, on one word. -/
theorem test_withFetchWord : after (regsAt [0]) (State.reset.withFetchWord 16 0x6005) = some [5] := by decide

/-! ## Witnesses: concrete states and operands that meet the hypotheses of the statements

Each theorem is named after the statement whose hypotheses it meets; a statement with several clauses has
a witness for each, at the boundary between them. -/

/-- The instruction at a state takes a next state with a property. -/
def completes (i : Instr) (s : State) (p : State → Bool) : Bool :=
  match exec i s with
  | .next t => p t
  | .fault _ => false
  | .refused _ => false

/-- A completion as the equation the statements assume. -/
theorem next_of_completes {i : Instr} {s : State} {p : State → Bool} (h : completes i s p = true) :
    ∃ t, exec i s = .next t ∧ p t = true := by
  unfold completes at h
  split at h
  · exact ⟨_, ‹_›, h⟩
  · cases h
  · cases h

theorem witness_ReturnPopsTheCallSite :
    State.reset.sp = 0 ∧ (withStack 4094 1 State.reset).sp.val = (0 : Fin 16).val + 1 ∧
      (withStack 4094 16 State.reset).sp.val = (15 : Fin 16).val + 1 ∧
      (withStack 4094 16 State.reset).stackLive :=
  ⟨by decide, by decide, by decide, fun k _ => by simp [withStack]⟩

theorem witness_JumpSetsPc :
    State.reset.pc.toNat = (0x200 : Addr).toNat ∧ (0xFFF : Addr).toNat = 0xFFF := by decide

theorem witness_CallPushesItsOwnAddress :
    (withStack 0 16 State.reset).sp = 16 ∧ (withStack 0 15 State.reset).sp.val = (15 : Fin 16).val ∧
      State.reset.sp.val = (0 : Fin 16).val ∧ (14 : Fin 16) ≠ 15 := by decide

theorem witness_SkipOnRegisters : (1 : Nibble) ≠ 0 ∧ (15 : Nibble) ≠ 0 := by decide

/-- The sum 4095 is the least that the next fetch refuses. -/
theorem witness_JumpWithOffset : completes (.jpV0 0xFFE) (State.reset.setReg 0 1)
    (fun t => decide (4094 < t.pc.toNat)) = true := by decide

/-- For AddRegistersSetsCarry, SubtractSetsNoBorrow and ShiftMovesOneBitToVf. -/
theorem witness_flagWriters_destination : (14 : Reg) ≠ VF := by decide

theorem witness_RandomByteAndImmediate :
    (beginCycle (some 0xA7) true State.reset).rnd = some 0xA7 ∧ (0x0F : Byte).getLsbD 4 = false := by decide

theorem witness_StoreDecimalDigits :
    (State.reset.setI 4094).mem.wf = true ∧ 4093 < (State.reset.setI 4094).base ∧
      (State.reset.setI 4093).base ≤ 4093 := by decide

theorem witness_DumpRegistersToMemory :
    (State.reset.setI 4081).mem.wf = true ∧ 4095 < (State.reset.setI 4081).base + (15 : Reg).val ∧
      (State.reset.setI 4080).base + (15 : Reg).val ≤ 4095 ∧
      (State.reset.setI 4095).base + (0 : Reg).val ≤ 4095 ∧ (3 : Reg) ≤ 15 := by decide

theorem witness_FillRegistersFromMemory :
    4095 < (State.reset.setI 4096).base + (0 : Reg).val ∧
      (State.reset.setI 4095).base + (0 : Reg).val ≤ 4095 := by decide

/-- One sprite row 0x81 at column 60, row 31, over a screen with two pixels set. -/
def drawState : State :=
  withPixels [(31, 60), (0, 0)] ((State.reset.storeBytes 0x300 [0x81]).setI 0x300
    |>.setReg 0 60 |>.setReg 1 31)

theorem drawState_lit : drawState.spriteLit 0 1 1 31 60 :=
  ⟨0, 0, by decide, by decide, by decide, by decide, by decide, by decide, by decide⟩

theorem drawState_unlit : ¬ drawState.spriteLit 0 1 1 0 0 := by
  rintro ⟨r, c, -, -, hy, -⟩
  have : (drawState.reg 1).toNat = 31 := by decide
  omega

/-- A blank sprite row at I of the reset state lights nothing. -/
theorem reset_unlit (py px : Nat) : ¬ State.reset.spriteLit 0 1 1 py px := by
  rintro ⟨r, c, -, -, -, -, -, -, hb⟩
  have h0 : State.reset.byteAt (State.reset.i.toNat + r) = 0 := rfl
  rw [h0] at hb
  simp at hb

theorem witness_DrawSpriteXorsPixels :
    (2 : Nibble) ≠ 0 ∧ 4095 < (State.reset.setI 0xFFF).base + (2 : Nibble).toNat - 1 ∧
      (State.reset.setI 0xFFF).base + (1 : Nibble).toNat - 1 ≤ 4095 ∧
      drawState.spriteLit 0 1 (1 : Nibble).toNat 31 60 ∧ ¬ drawState.spriteLit 0 1 (1 : Nibble).toNat 0 0 ∧
      (∃ py px, drawState.spriteLit 0 1 (1 : Nibble).toNat py px ∧ drawState.fb.pixel py px = true) ∧
      ¬ ∃ py px, State.reset.spriteLit 0 1 (1 : Nibble).toNat py px ∧ State.reset.fb.pixel py px = true :=
  ⟨by decide, by decide, by decide, drawState_lit, drawState_unlit,
    ⟨31, 60, drawState_lit, by decide⟩, fun ⟨py, px, h, _⟩ => reset_unlit py px h⟩

theorem witness_DrawChangesOnlyTheClippedBox : ∃ t, exec (.drw 0 1 1) drawState = .next t ∧
    (t.fb.pixel 31 60 != drawState.fb.pixel 31 60) = true :=
  next_of_completes (p := fun t => t.fb.pixel 31 60 != drawState.fb.pixel 31 60) (by decide)

theorem witness_CollisionNeedsALitPixel :
    (∃ t, exec (.drw 0 1 1) State.reset = .next t ∧ (t.reg VF == 0) = true) ∧
      (¬ ∃ py px, State.reset.spriteLit 0 1 (1 : Nibble).toNat py px) ∧
      ∀ r, r < (1 : Nibble).toNat → State.reset.byteAt (State.reset.i.toNat + r) = 0 :=
  ⟨next_of_completes (p := fun t => t.reg VF == 0) (by decide),
    fun ⟨py, px, h⟩ => reset_unlit py px h, fun _ _ => rfl⟩

/-- Two draws in a row, the second from the state the first left. -/
theorem witness_DrawingTwiceRestoresTheScreen :
    ∃ t, exec (.drw 0 1 1) drawState = .next t ∧ t.i = drawState.i ∧
      (∀ r, r < (1 : Nibble).toNat →
        t.byteAt (drawState.i.toNat + r) = drawState.byteAt (drawState.i.toNat + r)) ∧
      (t.reg 0).toNat % 64 = (drawState.reg 0).toNat % 64 ∧
      (t.reg 1).toNat % 32 = (drawState.reg 1).toNat % 32 := by
  obtain ⟨t, h, hp⟩ := next_of_completes (i := .drw 0 1 1) (s := drawState)
    (p := fun t => decide (t.i = drawState.i ∧ t.byteAt 0x300 = drawState.byteAt 0x300 ∧
      (t.reg 0).toNat = (drawState.reg 0).toNat ∧ (t.reg 1).toNat = (drawState.reg 1).toNat)) (by decide)
  simp only [decide_eq_true_eq] at hp
  refine ⟨t, h, hp.1, fun r hr => ?_, by rw [hp.2.2.1], by rw [hp.2.2.2]⟩
  have : r = 0 := by simp at hr; exact hr
  subst this
  exact hp.2.1

theorem witness_OnlyClearAndDrawTouchTheDisplay :
    (∃ t, exec (.cls 0) State.reset = .next t ∧ t.rf = true) ∧
      (∃ t, exec (.drw 0 1 0) State.reset = .next t ∧ t.rf = true) ∧
      ∃ t, exec (.jp 0x200) State.reset = .next t ∧ (!t.rf) = true :=
  ⟨next_of_completes (p := (·.rf)) (by decide), next_of_completes (p := (·.rf)) (by decide),
    next_of_completes (p := fun t => !t.rf) (by decide)⟩

theorem witness_SkipOnKey :
    15 < ((State.reset.setReg 2 16).reg 2).toNat ∧
      ((State.reset.setReg 2 15).reg 2).toNat = (15 : Fin 16).val := by decide

theorem witness_WaitForKey :
    (∀ k : Fin 16, State.reset.keys[k.val] = false) ∧
      (withKeys [3, 9, 12] State.reset).keys[(3 : Fin 16).val] = true ∧
      (∀ j : Fin 16, j < 3 → (withKeys [3, 9, 12] State.reset).keys[j.val] = false) ∧
      (withKeys [15] State.reset).keys[(15 : Fin 16).val] = true ∧
      ∀ j : Fin 16, j < 15 → (withKeys [15] State.reset).keys[j.val] = false := by decide

theorem witness_OnlyListedRegistersChange :
    (∃ t, exec (.addReg 0 1) State.reset = .next t ∧ (t.reg 2 == 0) = true) ∧
      mayWriteReg (.addReg 0 1) 2 = false ∧ mayWriteReg (.loadRegs 14) 15 = false :=
  ⟨next_of_completes (p := fun t => t.reg 2 == 0) (by decide), by decide, by decide⟩

/-- A jump meets every premise of the access matrix at once. -/
theorem witness_AccessMatrixOfWrites :
    (∃ t, exec (.jp 0x200) State.reset = .next t ∧ decide (t = State.reset) = true) ∧
      (∀ x, Instr.jp 0x200 ≠ .ldB x) ∧ (∀ x, Instr.jp 0x200 ≠ .storeRegs x) ∧
      (∀ a, Instr.jp 0x200 ≠ .ldI a) ∧ (∀ x, Instr.jp 0x200 ≠ .addIVx x) ∧
      (∀ x, Instr.jp 0x200 ≠ .ldF x) ∧ (∀ a, Instr.jp 0x200 ≠ .call a) ∧
      (∀ z, Instr.jp 0x200 ≠ .ret z) ∧ (∀ x, Instr.jp 0x200 ≠ .ldDtVx x) ∧
      (∀ x, Instr.jp 0x200 ≠ .ldStVx x) := by
  refine ⟨next_of_completes (p := fun t => decide (t = State.reset)) (by decide), ?_, ?_, ?_, ?_, ?_, ?_,
    ?_, ?_, ?_⟩ <;> intro _ h <;> cases h

/-- Each of the six causes of a fault, at its boundary. -/
theorem witness_FaultsAreExactlyTheListedOnes :
    exec (.call 0x300) (withStack 0 16 State.reset) = .fault (.stackOverflow 0x200) ∧
      exec (.ret 0) State.reset = .fault (.stackUnderflow 0x200) ∧
      exec (.drw 0 1 2) (State.reset.setI 4095) = .fault (.addressOutOfRange 4096) ∧
      exec (.ldB 0) (State.reset.setI 4094) = .fault (.addressOutOfRange 4096) ∧
      exec (.storeRegs 0) (State.reset.setI 4096) = .fault (.addressOutOfRange 4096) ∧
      exec (.loadRegs 1) (State.reset.setI 4095) = .fault (.addressOutOfRange 4096) ∧
      exec (.sknp 2) (State.reset.setReg 2 16) = .fault (.keyIndexOutOfRange 16) :=
  ⟨rfl, rfl, rfl, rfl, rfl, rfl, rfl⟩

theorem witness_OnlyRndReadsTheRandomByte :
    (∀ x nn, Instr.ret 0 ≠ .rnd x nn) ∧ exec (.ret 0) State.reset = .fault (.stackUnderflow 0x200) ∧
      ∃ t, exec (.ret 0) (withStack 0x204 1 State.reset) = .next t ∧ decide (t.sp = 0) = true :=
  ⟨(fun _ _ h => by cases h), rfl, next_of_completes (p := fun t => decide (t.sp = 0)) (by decide)⟩

theorem witness_FieldsOfTheWord : wordOfBytes 0xD1 0x25 = 0xD125 := by decide

theorem witness_DecodeOfEncodeIsTheInstruction :
    (Instr.seReg 15 0 0).wellFormedWith true = true ∧ (Instr.seReg 15 0 15).wellFormedWith false = true := by
  decide

theorem witness_EncodeOfDecodeIsTheWord :
    decodeWord false 0x5AB7 = .ok (.seReg 10 11 7) ∧ decodeWord true 0x00E0 = .ok (.cls 0) := ⟨rfl, rfl⟩

theorem witness_DecoderAgreesWithTheOpcodeMap :
    Decodes 0x0FEE (.ret 15) ∧ selectsRow 0x0FEE (.ret 0) ∧ selectsRow 0x0FEE (.ret 7) :=
  ⟨rfl, by decide, by decide⟩

theorem witness_FailingWordsRaiseDecodeFailure :
    fetch State.reset = .ok 0 ∧ decodeWord Config.decodeStrict 0 = .error (.noPattern 0) := ⟨rfl, rfl⟩

theorem witness_FetchIsBigEndian :
    (State.reset.setPc 4094).pc.toNat ≤ 4094 ∧ 4094 < (State.reset.setPc 4095).pc.toNat := by decide

/-- One state whose step completes and one whose instruction faults. -/
theorem witness_StepRunsTheDecodedInstruction :
    (fetch (start 0x6005 id) = .ok 0x6005 ∧ Decodes 0x6005 (.ldImm 0 5) ∧
      ∃ u, exec (.ldImm 0 5) (hostPhase (start 0x6005 id)) = .next u ∧ (u.reg 0 == 5) = true) ∧
    fetch (start 0x00EE id) = .ok 0x00EE ∧ Decodes 0x00EE (.ret 0) ∧
      exec (.ret 0) (hostPhase (start 0x00EE id)) = .fault (.stackUnderflow 0x200) :=
  ⟨⟨rfl, rfl, next_of_completes (p := fun u => u.reg 0 == 5) (by decide)⟩, rfl, rfl, rfl⟩

/-- The four clauses in turn: a fetch out of range, a word that fails to decode, a fault, a completion. -/
theorem witness_CycleIsFetchDecodeExecuteTimers :
    fetch (State.reset.setPc 4095) = .error (.addressOutOfRange 4096) ∧
    (fetch State.reset = .ok 0 ∧ decodeWord Config.decodeStrict 0 = .error (.noPattern 0)) ∧
    (fetch (start 0x00EE id) = .ok 0x00EE ∧ Decodes 0x00EE (.ret 0) ∧
      exec (.ret 0) (beginCycle (some 0) true (start 0x00EE id)) = .fault (.stackUnderflow 0x200)) ∧
    fetch (start 0x6005 id) = .ok 0x6005 ∧ Decodes 0x6005 (.ldImm 0 5) ∧
      ∃ u, exec (.ldImm 0 5) (beginCycle (some 0) true (start 0x6005 id)) = .next u ∧
        (u.reg 0 == 5) = true :=
  ⟨rfl, ⟨rfl, rfl⟩, ⟨rfl, rfl, rfl⟩, rfl, rfl,
    next_of_completes (p := fun u => u.reg 0 == 5) (by decide)⟩

theorem witness_PlacedWordIsFetched :
    (State.reset.setPc 4095).mem.wf = true ∧ (State.reset.setPc 4094).pc.toNat ≤ 4094 := by decide

theorem witness_TimerTickCountsBothDown :
    0 < (State.reset.setDt 1).dt.toNat ∧ State.reset.dt = 0 ∧ 0 < (State.reset.setSt 255).st.toNat ∧
      State.reset.st = 0 := by decide

/-- Completed cycles that load DT, that do not, and that read it. -/
theorem witness_DelayTimerFallsOncePerCycle :
    ((cycle 0 true (start 0xF015 (·.setReg 0 3))).2 = .completed false ∧
      fetch (start 0xF015 (·.setReg 0 3)) = .ok 0xF015 ∧ Decodes 0xF015 (.ldDtVx 0)) ∧
    ((cycle 0 false (start 0xF107 (·.setDt 2))).2 = .completed false ∧
      fetch (start 0xF107 (·.setDt 2)) = .ok 0xF107 ∧ Decodes 0xF107 (.ldVxDt 1) ∧
      ∀ x, Instr.ldVxDt 1 ≠ .ldDtVx x) :=
  ⟨⟨rfl, rfl, rfl⟩, rfl, rfl, rfl, fun _ h => by cases h⟩

theorem witness_FaultedMachineStaysFaulted :
    (cycle 7 true State.reset).2 = .faulted (.decodeFailure 0) := rfl

theorem witness_FaultPriority :
    4094 < (State.reset.setPc 4095).pc.toNat ∧
    (fetch State.reset = .ok 0 ∧ decodeWord Config.decodeStrict 0 = .error (.noPattern 0)) ∧
    step (start 0x00EE id) = .fault (.stackUnderflow 0x200) ∧ (start 0x00EE id).pc.toNat ≤ 4094 ∧
      ∀ w, Fault.stackUnderflow 0x200 ≠ .decodeFailure w :=
  ⟨by decide, ⟨rfl, rfl⟩, rfl, by decide, fun _ h => by cases h⟩

theorem witness_HostActsBeforeTheCycle : State.reset.script = [] ∧
    { State.reset with script := [⟨[.clearRedraw], none, false⟩] }.script =
      ⟨[.clearRedraw], none, false⟩ :: [] := ⟨rfl, rfl⟩

theorem witness_ConstructBuildsTheImage :
    (List.replicate 80 (0xF0 : Byte)).length = 80 ∧ (List.replicate 3584 (0x12 : Byte)).length ≤ 3584 ∧
      ([] : List Byte).length ≤ 3584 :=
  ⟨List.length_replicate, List.length_replicate.le, by decide⟩

theorem witness_ConstructFailsOnlyOnSizes :
    3584 < (List.replicate 3585 (0x12 : Byte)).length ∧ ([] : List Byte).length ≤ 3584 ∧
      (List.replicate 79 (0 : Byte)).length ≠ 80 ∧
      construct (List.replicate 79 0) [] = .error (.fontLength 79) := by
  refine ⟨?_, by decide, by decide, rfl⟩
  rw [List.length_replicate]
  decide

/-- A state that meets the invariant and completes its step: a full stack, PC at the last word. -/
theorem witness_StepKeepsTheInvariant :
    (start 0x00EE fun s => (withStack 4094 16 s).setPc 4094).Inv ∧
      after (fun t => (t.pc.toNat, t.sp)) (start 0x00EE fun s => (withStack 4094 16 s).setPc 4094) =
        some (4096, 15) :=
  ⟨⟨by decide, fun k _ => by simp [start, withStack, State.placeWord, State.setPc], by decide⟩, by decide⟩

theorem witness_StoreIsSeenByTheNextFetch :
    (State.reset.setI 0x202).mem.wf = true ∧ 1 ≤ (1 : Reg).val ∧
      (State.reset.setI 0x202).base = (State.reset.setI 0x202).pc.toNat + 2 ∧
      (State.reset.setI 0x202).base + (1 : Reg).val ≤ 4095 := by decide

theorem witness_ReturnUndoesCall : (withStack 0x204 15 State.reset).sp.val < 16 := by decide

/-- `JP 0x200` at 0x200. -/
theorem witness_FinishedProgramOnlyCountsDown :
    (start 0x1200 fun s => s.setDt 3).Finished ∧ (start 0x1200 fun s => s.setDt 3).script = [] :=
  ⟨⟨0x1200, rfl, rfl⟩, rfl⟩

theorem witness_SettingsOfTheParameters :
    (15 : Reg) = VF ∧ (14 : Reg) ≠ VF ∧ 15 < (16 : Byte).toNat ∧
      selectKey .any 4 (withKeys [3, 9, 12] State.reset).keys = some 9 := by decide

end Sys2Proof.Tests
end

/-!
The settings of `VF_ALIAS`, `KEY_INDEX_MODE` and `KEY_SELECT` that are not the defaults (00_scope.md
R7; D8, D9, D10).
-/

namespace Sys2Proof.Machine

/-! ## Frames of a register write -/

theorem SameButRegs.refl (s : State) : SameButRegs s s :=
  ⟨fun _ => rfl, rfl, ⟨rfl, rfl⟩, ⟨rfl, rfl⟩, ⟨rfl, rfl⟩, rfl, rfl, rfl, rfl, rfl, rfl⟩

theorem SameButRegs.setReg {s t : State} (h : SameButRegs s t) (x : Reg) (b : Byte) :
    SameButRegs s (t.setReg x b) := h

theorem SameButRegs.advance {s t : State} (h : SameButRegs s t) : SameButRegs s t.advance := h

theorem flagByte_toNat (b : Bool) : (flagByte b).toNat = if b then 1 else 0 := by
  cases b <;> rfl

/-! ## `VF_ALIAS` (R161, D10) -/

/-- The registers after result and flag are written in this order: the flag wins in VF. -/
theorem reg_resultFlag (x k : Reg) (f r : Byte) (s : State) :
    (((s.setReg x r).setReg VF f).advance).reg k =
      if k = VF then f else if k = x then r else s.reg k := by
  simp [reg_setReg]

theorem writeFlagResult_flagLast (x : Reg) (flag : Bool) (r : Byte) (s : State) :
    writeFlagResult .flagLast x flag r s =
      .next ((s.setReg x r).setReg VF (flagByte flag)).advance := rfl

theorem writeFlagResult_refuse_VF (flag : Bool) (r : Byte) (s : State) :
    writeFlagResult .refuse VF flag r s = .refused .vfDestination := rfl

theorem writeFlagResult_refuse_of_ne {x : Reg} (h : x ≠ VF) (flag : Bool) (r : Byte) (s : State) :
    writeFlagResult .refuse x flag r s = writeFlagResult .resultLast x flag r s := if_neg h

/-! ## `KEY_INDEX_MODE` (R240, D8) -/

theorem keyState_mask_of_ge {k : Byte} (h : ¬ k.toNat < 16) (keys : Keys) :
    keyState .mask k keys = .ok keys[k.toNat % 16] := dif_neg h

theorem keyState_notPressed_of_ge {k : Byte} (h : ¬ k.toNat < 16) (keys : Keys) :
    keyState .notPressed k keys = .ok false := dif_neg h

/-! ## `KEY_SELECT` (R243, D9) -/

theorem pressedKeys_eq_nil_iff (keys : Keys) :
    pressedKeys keys = [] ↔ ∀ k : Reg, keys[k.val] = false :=
  List.head?_eq_none_iff.symm.trans (selectKey_none_iff 0 keys)

/-- The free choice is taken modulo the number of pressed keys, so it misses only when there is none. -/
theorem selectKey_any_none_iff (c : Nat) (keys : Keys) :
    selectKey .any c keys = none ↔ ∀ k : Reg, keys[k.val] = false := by
  rw [← pressedKeys_eq_nil_iff]
  simp only [selectKey, List.getElem?_eq_none_iff]
  constructor
  · intro h
    by_contra hne
    have hlt := Nat.mod_lt c (List.length_pos_iff.2 hne)
    omega
  · intro h
    simp [h]

theorem pressed_of_selectKey_any {c : Nat} {keys : Keys} {k : Reg}
    (h : selectKey .any c keys = some k) : keys[k.val] = true :=
  (mem_pressedKeys keys k).1 (List.mem_of_getElem? h)

end Sys2Proof.Machine

namespace Sys2Proof.Proofs

open Sys2Proof.Machine

/-- Settles O58. Each setting by its own law: under `flag_last` the flag is written after the result, and a
free choice of key is an index into the list of pressed keys. -/
theorem settingsOfTheParameters : Obligations.SettingsOfTheParameters := by
  refine ⟨fun x flag r s => ⟨⟨_, writeFlagResult_flagLast x flag r s, ?_, ?_, rfl, ?_, ?_⟩, ?_, ?_⟩,
    fun k keys hk => ?_, fun c keys => ?_⟩
  · rw [reg_resultFlag, if_pos rfl, flagByte_toNat]
  · intro hx
    rw [reg_resultFlag, if_neg hx, if_pos rfl]
  · intro k hk
    obtain ⟨hkx, hkf⟩ : k ≠ x ∧ k ≠ VF := by simpa using hk
    rw [reg_resultFlag, if_neg hkf, if_neg hkx]
  · exact (((SameButRegs.refl s).setReg x r).setReg VF _).advance
  · rintro rfl
    exact writeFlagResult_refuse_VF flag r s
  · exact fun hx => writeFlagResult_refuse_of_ne hx flag r s
  · have hk' : ¬ k.toNat < 16 := by omega
    exact ⟨keyState_mask_of_ge hk' keys, keyState_notPressed_of_ge hk' keys⟩
  · exact ⟨selectKey_any_none_iff c keys, fun _ => pressed_of_selectKey_any⟩

end Sys2Proof.Proofs

/-!
The state after reset, what a completed instruction may write, and the invariant (10_state.md R20 to
R36). `Effect` says once, for all 34 instructions, what a completion can have written; every claim over
all instructions here is a case split on it.
-/

namespace Sys2Proof.Machine

variable {s t : State} {i : Instr}

/-! ## What a completed instruction may have written -/

theorem zext16_toNat_le (a : Addr) : (zext16 a).toNat ≤ 0xFFF := by
  have := a.isLt
  simp only [zext16, BitVec.toNat_setWidth]
  omega

/-- The target of JP V0 does not wrap: the largest is 0xFF + 0xFFF (R138). -/
theorem toNat_jpV0_target_le (b : Byte) (a : Addr) : (zext16 b + zext16 a).toNat ≤ 0x10FE := by
  have := a.isLt
  have := b.isLt
  simp only [zext16, BitVec.toNat_add, BitVec.toNat_setWidth]
  omega

/-- What an instruction that completes from `s` may have written, by the last operation of its meaning
(R32). The instruction is named where a rule lists the writers of a field, and a value is bounded where
the invariant needs it; the other values are left open. -/
inductive Effect (s : State) : Instr → State → Prop where
  | writeReg {i : Instr} {x : Reg} (b : Byte) (hx : mayWriteReg i x = true) :
      Effect s i (s.setReg x b).advance
  | writeFlagAndReg {i : Instr} {x : Reg} (f r : Byte) (hf : mayWriteReg i VF = true)
      (hx : mayWriteReg i x = true) : Effect s i ((s.setReg VF f).setReg x r).advance
  | loadRegs (x : Reg) : Effect s (.loadRegs x) (s.loadV (s.bytesAt s.base (x.val + 1))).advance
  | stall (x : Reg) : Effect s (.ldVxK x) s
  | skip {i : Instr} (c : Bool) : Effect s i (s.skipIf c)
  | jump {i : Instr} {w : Word} (hw : w.toNat ≤ 0x10FE) : Effect s i (s.setPc w)
  | call (a : Addr) (hs : s.sp.val < 16) :
      Effect s (.call a) (State.setPc
        { s with stack := s.stack.set s.sp.val s.pc, sp := ⟨s.sp.val + 1, by omega⟩ } (zext16 a))
  | ret (z : Nibble) (hs : 0 < s.sp.val) :
      Effect s (.ret z) (State.setPc { s with sp := ⟨s.sp.val - 1, by omega⟩ }
        (s.stack[s.sp.val - 1] + 2))
  | clear (z : Nibble) : Effect s (.cls z) (s.setScreen Screen.blank).advance
  | draw (x y : Reg) (n : Nibble) (g : Screen) (f : Byte) :
      Effect s (.drw x y n) ((s.setScreen g).setReg VF f).advance
  | setI {i : Instr} (w : Word)
      (hi : (∃ a, i = .ldI a) ∨ (∃ x, i = .addIVx x) ∨ ∃ x, i = .ldF x) : Effect s i (s.setI w).advance
  | store {i : Instr} {bs : List Byte} (hi : (∃ x, i = .ldB x) ∨ ∃ x, i = .storeRegs x)
      (hr : s.base + bs.length ≤ 4096) : Effect s i (s.storeBytes s.base bs).advance
  | setDt (x : Reg) (b : Byte) : Effect s (.ldDtVx x) (s.setDt b).advance
  | setSt (x : Reg) (b : Byte) : Effect s (.ldStVx x) (s.setSt b).advance

/-- Every completed instruction has one of these effects. -/
theorem effect_of_exec (h : exec i s = .next t) : Effect s i t := by
  cases i with
  | ldImm x | addImm x | ldReg x | orReg x | andReg x | xorReg x | rnd x | ldVxDt x =>
    cases h
    exact .writeReg _ (beq_self_eq_true x)
  | ldVxK x =>
    obtain ⟨rfl, -⟩ | ⟨k, -, rfl⟩ := ldVxK_next_inv h
    · exact .stall x
    · exact .writeReg _ (beq_self_eq_true x)
  | addReg x | subReg x | subnReg x | shr x | shl x =>
    cases h
    exact .writeFlagAndReg _ _ (by simp [mayWriteReg]) (by simp [mayWriteReg])
  | loadRegs x =>
    obtain ⟨-, rfl⟩ := withRange_next_inv h
    exact .loadRegs x
  | seImm | sneImm | seReg | sneReg =>
    cases h
    exact .skip _
  | skp x =>
    obtain ⟨b, -, rfl⟩ := skp_next_inv h
    exact .skip b
  | sknp x =>
    obtain ⟨b, -, rfl⟩ := sknp_next_inv h
    exact .skip _
  | jp a =>
    cases h
    exact .jump ((zext16_toNat_le a).trans (by decide))
  | jpV0 a =>
    cases h
    exact .jump (toNat_jpV0_target_le _ a)
  | call a =>
    obtain ⟨hs, rfl⟩ := call_next_inv h
    exact .call a hs
  | ret z =>
    obtain ⟨hs, rfl⟩ := ret_next_inv h
    exact .ret z hs
  | cls z =>
    cases h
    exact .clear z
  | drw x y n =>
    obtain ⟨-, rfl⟩ := withRange_next_inv h
    exact .draw x y n _ _
  | ldI a =>
    cases h
    exact .setI _ (.inl ⟨a, rfl⟩)
  | addIVx x =>
    cases h
    exact .setI _ (.inr (.inl ⟨x, rfl⟩))
  | ldF x =>
    cases h
    exact .setI _ (.inr (.inr ⟨x, rfl⟩))
  | ldB x =>
    obtain ⟨hr, rfl⟩ := withRange_next_inv h
    exact .store (.inl ⟨x, rfl⟩) (by rw [length_bcdDigits]; omega)
  | storeRegs x =>
    obtain ⟨hr, rfl⟩ := withRange_next_inv h
    exact .store (.inr ⟨x, rfl⟩) (by rw [length_regsTo]; omega)
  | ldDtVx x =>
    cases h
    exact .setDt x _
  | ldStVx x =>
    cases h
    exact .setSt x _

/-! ## The general registers (R22, R23) -/

theorem ne_of_mayWriteReg {x k : Reg} (hx : mayWriteReg i x = true) (hk : mayWriteReg i k = false) :
    k ≠ x := by
  rintro rfl
  rw [hx] at hk
  cases hk

theorem reg_loadV_above {x k : Reg} (h : x.val < k.val) {bs : List Byte} (hbs : bs.length = x.val + 1) :
    (s.loadV bs).reg k = s.reg k := by
  have hout : ¬ k.val < bs.length := by rw [hbs]; omega
  rw [reg_loadV, dif_neg hout]

theorem Effect.reg_eq {k : Reg} (he : Effect s i t) (hk : mayWriteReg i k = false) :
    t.reg k = s.reg k := by
  cases he with
  | writeReg b hx => exact reg_setReg_other s b (ne_of_mayWriteReg hx hk)
  | writeFlagAndReg f r hf hx =>
    rw [reg_flagResult, if_neg (ne_of_mayWriteReg hx hk), if_neg (ne_of_mayWriteReg hf hk)]
  | draw x y n g f => exact reg_setReg_other _ f (ne_of_mayWriteReg (i := .drw x y n) rfl hk)
  | loadRegs x =>
    exact reg_loadV_above (Fin.lt_def.1 (not_le.1 (of_decide_eq_false hk))) (Memory.length_readBytes ..)
  | skip c => exact reg_skipIf s c k
  | _ => rfl

/-! ## The other fields and their writers (R32) -/

theorem Effect.mem_eq (he : Effect s i t) (hB : ∀ x, i ≠ .ldB x) (hS : ∀ x, i ≠ .storeRegs x) :
    t.mem = s.mem := by
  cases he with
  | store hi =>
    obtain ⟨x, hx⟩ | ⟨x, hx⟩ := hi
    exacts [absurd hx (hB x), absurd hx (hS x)]
  | skip c => exact s.skipIf_mem c
  | _ => rfl

theorem Effect.i_eq (he : Effect s i t) (hL : ∀ a, i ≠ .ldI a) (hA : ∀ x, i ≠ .addIVx x)
    (hF : ∀ x, i ≠ .ldF x) : t.i = s.i := by
  cases he with
  | setI w hi =>
    obtain ⟨a, hx⟩ | ⟨x, hx⟩ | ⟨x, hx⟩ := hi
    exacts [absurd hx (hL a), absurd hx (hA x), absurd hx (hF x)]
  | skip c => exact s.skipIf_i c
  | _ => rfl

theorem Effect.stack_eq (he : Effect s i t) (hC : ∀ a, i ≠ .call a) : t.stack = s.stack := by
  cases he with
  | call a => exact absurd rfl (hC a)
  | skip c => exact s.skipIf_stack c
  | _ => rfl

theorem Effect.sp_eq (he : Effect s i t) (hC : ∀ a, i ≠ .call a) (hR : ∀ z, i ≠ .ret z) :
    t.sp = s.sp := by
  cases he with
  | call a => exact absurd rfl (hC a)
  | ret z => exact absurd rfl (hR z)
  | skip c => exact s.skipIf_sp c
  | _ => rfl

theorem Effect.dt_eq (he : Effect s i t) (hD : ∀ x, i ≠ .ldDtVx x) : t.dt = s.dt := by
  cases he with
  | setDt x => exact absurd rfl (hD x)
  | skip c => exact s.skipIf_dt c
  | _ => rfl

theorem Effect.st_eq (he : Effect s i t) (hT : ∀ x, i ≠ .ldStVx x) : t.st = s.st := by
  cases he with
  | setSt x => exact absurd rfl (hT x)
  | skip c => exact s.skipIf_st c
  | _ => rfl

/-! ## The invariant (R25, R26, R36) -/

theorem State.stackLive_of_sameStack (h : SameStack s t) (hl : s.stackLive) : t.stackLive := by
  obtain ⟨hstack, hsp⟩ := h
  simpa only [State.stackLive, hstack, hsp] using hl

/-- The invariant sees memory, the call stack and PC only. -/
theorem State.Inv.of_same (hi : s.Inv) (hmem : t.mem = s.mem) (hst : SameStack s t) (hpc : t.pc = s.pc) :
    t.Inv :=
  ⟨hmem ▸ hi.memWf, State.stackLive_of_sameStack hst hi.stackLive, hpc ▸ hi.pcBound⟩

theorem HostFrame.inv (h : HostFrame s t) (hi : s.Inv) : t.Inv :=
  hi.of_same h.mem ⟨h.stack, h.sp⟩ h.pc

theorem timerPhase_keeps_inv (hi : s.Inv) : (timerPhase s).Inv :=
  hi.of_same (timerPhase_mem s) ⟨timerPhase_stack s, timerPhase_sp s⟩ (timerPhase_pc s)

/-- A store passes the range check for all its bytes before it writes any (R61, R206). -/
theorem Effect.memWf (he : Effect s i t) (hm : s.mem.wf = true) : t.mem.wf = true := by
  cases he with
  | store _ hr => exact Memory.wf_writeBytes hm hr
  | skip c => rwa [s.skipIf_mem]
  | _ => exact hm

/-- CALL makes its own address the newest live slot, and it was fetched from there; RET only ends the
life of a slot. -/
theorem Effect.stackLive (he : Effect s i t) (hpc : s.pc.toNat ≤ 4094) (hl : s.stackLive) :
    t.stackLive := by
  cases he with
  | call a hs =>
    intro k hk
    simp only [State.setPc_stack, Vector.getElem_set]
    split
    · exact hpc
    · next hne => exact hl k (by simp only [State.setPc_sp] at hk; omega)
  | ret z hs => exact fun k hk => hl k (lt_of_lt_of_le hk (Nat.sub_le _ 1))
  | skip c => exact State.stackLive_of_sameStack ⟨s.skipIf_stack c, s.skipIf_sp c⟩ hl
  | _ => exact hl

/-- No instruction that was fetched computes a PC above 0x10FE (R140): advances and skips end at most at
4098, RET at most at 4096, and only JP V0 reaches 0x10FE. -/
theorem Effect.pcBound (he : Effect s i t) (hpc : s.pc.toNat ≤ 4094) (hl : s.stackLive) :
    t.pc.toNat ≤ 0x10FE := by
  have hadvance : (s.pc + 2).toNat ≤ 0x10FE := by bv_omega
  have hskip : (s.pc + 4).toNat ≤ 0x10FE := by bv_omega
  cases he with
  | jump hw => exact hw
  | call a => exact (zext16_toNat_le a).trans (by decide)
  | ret z hs =>
    have hslot := hl ⟨s.sp.val - 1, by omega⟩ (Nat.sub_lt hs Nat.one_pos)
    rw [State.setPc_pc]
    bv_omega
  | skip c => cases c; exacts [hadvance, hskip]
  | stall x => omega
  | _ => exact hadvance

/-- An instruction that was fetched and completes keeps the invariant. -/
theorem exec_keeps_inv (hi : s.Inv) (hpc : s.pc.toNat ≤ 4094) (h : exec i s = .next t) : t.Inv :=
  have he := effect_of_exec h
  ⟨he.memWf hi.memWf, he.stackLive hpc hi.stackLive, he.pcBound hpc hi.stackLive⟩

end Sys2Proof.Machine

namespace Sys2Proof.Proofs

open Sys2Proof.Machine

/-- Settles O54. A step is the host's part, one instruction and the timer phase; the first and the last
touch nothing the invariant speaks of, and the instruction was fetched, so PC was at most 4094. -/
theorem stepKeepsTheInvariant : Obligations.StepKeepsTheInvariant := by
  intro s t hi h
  obtain ⟨w, i, u, hf, -, hu, rfl⟩ := step_next_inv h
  have hhost := hostFrame_hostPhase s
  have hpc : (hostPhase s).pc.toNat ≤ 4094 := pc_le_of_fetch (hhost.fetch.trans hf)
  exact timerPhase_keeps_inv (exec_keeps_inv (hhost.inv hi) hpc hu)

/-- Settles O27. -/
theorem onlyListedRegistersChange : Obligations.OnlyListedRegistersChange :=
  fun _ _ _ _ h hk => (effect_of_exec h).reg_eq hk

/-- Settles O28, field by field from the effect of the instruction. -/
theorem accessMatrixOfWrites : Obligations.AccessMatrixOfWrites := by
  intro i s t h
  have he := effect_of_exec h
  exact ⟨he.mem_eq, he.i_eq, fun hC => ⟨he.stack_eq hC, he.sp_eq hC⟩, he.dt_eq, he.st_eq,
    exec_keeps_host h⟩

/-- Settles O50. The three arrays are constant vectors, the framebuffer is the blank screen and memory
lists no byte. -/
theorem resetValues : Obligations.ResetValues := by
  refine ⟨rfl, rfl, fun k => ?_, rfl, rfl, rfl, fun k => ?_, fun k => ?_, Screen.pixel_blank, rfl,
    fun _ => rfl, rfl⟩
  all_goals exact Vector.getElem_replicate k.isLt

/-- Settles O53. No stack slot is live, since SP = 0. -/
theorem resetMeetsTheInvariant : Obligations.ResetMeetsTheInvariant where
  memWf := rfl
  stackLive := fun _ hk => absurd hk (Nat.not_lt_zero _)
  pcBound := by decide

end Sys2Proof.Proofs

/-!
The fetch and memory (20_memory.md R63, R65, R71, R73): what a fetch reads, and that a placed word and a
stored register dump are what the next fetch reads.
-/

namespace Sys2Proof.Machine

variable {s : State}

/-! ## The word of two bytes and the place of a word -/

/-- Big-endian (R63): the first byte is the more significant. -/
theorem wordOfBytes_toNat (hi lo : Byte) : (wordOfBytes hi lo).toNat = 256 * hi.toNat + lo.toNat := by
  rw [wordOfBytes, BitVec.toNat_append, ← Nat.shiftLeft_add_eq_or_of_lt lo.isLt, Nat.shiftLeft_eq]
  omega

theorem fetchAddr_of_le (h : s.pc.toNat ≤ 4094) : fetchAddr s = s.pc := if_neg (by omega)

theorem placeWord_pc_of_le (h : s.pc.toNat ≤ 4094) (w : Word) : (s.placeWord w).pc = s.pc :=
  fetchAddr_of_le h

theorem sameMemBut_placeWord (hm : s.mem.wf = true) (h : s.pc.toNat ≤ 4094) (w : Word) :
    SameMemBut s.pc.toNat 2 s (s.placeWord w) := by
  intro b hb
  have hin : s.pc.toNat + (bytesOfWord w).length ≤ 4096 := show s.pc.toNat + 2 ≤ 4096 by omega
  have hread := Memory.read_writeBytes_outside hm hin hb
  simpa only [State.placeWord, State.byteAt, fetchAddr_of_le h] using hread

/-! ## The register dump (R204) -/

theorem exec_storeRegs_of_le {x : Reg} (h : s.base + x.val ≤ 4095) :
    exec (.storeRegs x) s = .next (s.storeBytes s.base (s.regsTo x)).advance :=
  withRange_of_inRange (Or.inr (by omega))

/-- After a dump of V0 to Vx at an address, each register up to Vx reads back from its own place. -/
theorem byteAt_storeBytes_regsTo {a : Nat} {x k : Reg} (hm : s.mem.wf = true) (ha : a + x.val ≤ 4095)
    (hk : k ≤ x) : (s.storeBytes a (s.regsTo x)).byteAt (a + k.val) = s.reg k := by
  have hlen : k.val < (s.regsTo x).length := by rw [length_regsTo]; exact Nat.lt_succ_of_le hk
  rw [byteAt_storeBytes_inside hm (by rw [length_regsTo]; omega) hlen, getElem_regsTo]

end Sys2Proof.Machine

namespace Sys2Proof.Proofs

open Sys2Proof.Machine

/-- Settles O55. The advanced PC is the base of the dump, so the fetch reads the places of V0 and V1. -/
theorem storeIsSeenByTheNextFetch : Obligations.StoreIsSeenByTheNextFetch := by
  intro x s hm hx hbase hr
  refine ⟨_, exec_storeRegs_of_le hr, ?_⟩
  set t := s.storeBytes s.base (s.regsTo x)
  have hpc : t.advance.pc.toNat = s.base := by
    rw [State.advance_pc, State.storeBytes_pc]
    bv_omega
  have h0 : t.advance.byteAt s.base = s.reg 0 := byteAt_storeBytes_regsTo (k := 0) hm hr (Fin.zero_le x)
  have h1 : t.advance.byteAt (s.base + 1) = s.reg 1 := byteAt_storeBytes_regsTo (k := 1) hm hr hx
  rw [fetch_of_le (by omega), hpc, h0, h1]

/-- Settles O39. -/
theorem fetchIsBigEndian : Obligations.FetchIsBigEndian :=
  fun _ => ⟨fun hle => ⟨_, fetch_of_le hle, wordOfBytes_toNat _ _⟩, fetch_of_gt⟩

/-- Settles O42. Where a word fits at PC it is placed at PC itself. -/
theorem placedWordIsFetched : Obligations.PlacedWordIsFetched :=
  fun _ nbits w hm => ⟨fetch_placeWord (tableWord nbits w) hm,
    fun hle => ⟨placeWord_pc_of_le hle _, sameMemBut_placeWord hm hle _⟩⟩

end Sys2Proof.Proofs

/-!
Encoding (30_encoding.md): the decoder and the encoder invert each other, the decoder and the masks of the
opcode map agree, and which words no setting of `DECODE_STRICT` decodes. `decodeWord_eq_ok_iff` says once
which word decodes to which instruction; beside it, that no instruction and no step is refused.
-/

namespace Sys2Proof

/-! ## Decoding inverts encoding (R96, R99) -/

theorem decodeLoose_encode (i : Instr) : decodeLoose (encode i) = some i := by
  cases i with
  | cls | ret => simp [encode, decodeLoose, decodeClass0]
  | ldReg | orReg | andReg | xorReg | addReg | subReg | shr | subnReg | shl =>
    simp [encode, decodeLoose, decodeClass8]
  | skp | sknp => simp [encode, decodeLoose, decodeClassE]
  | ldVxDt | ldVxK | ldDtVx | ldStVx | addIVx | ldF | ldB | storeRegs | loadRegs =>
    simp [encode, decodeLoose, decodeClassF]
  | _ => simp [encode, decodeLoose]

section Fields

variable {w : Word} {op : Nibble} (ho : (fieldOp w).toNat = op.toNat)

include ho

theorem packA_of_fields : packA op (fieldNNN w) = w := by
  rw [← BitVec.eq_of_toNat_eq ho, packA_fields]

theorem packXK_of_fields {nn : Byte} (hn : (fieldNN w).toNat = nn.toNat) :
    packXK op (nibbleX w) nn = w := by
  rw [← BitVec.eq_of_toNat_eq ho, ← BitVec.eq_of_toNat_eq hn, packXK_fields]

theorem pack4_of_fields {n : Nibble} (hn : (fieldN w).toNat = n.toNat) :
    pack4 op (nibbleX w) (nibbleY w) n = w := by
  rw [← BitVec.eq_of_toNat_eq ho, ← BitVec.eq_of_toNat_eq hn, pack4_fields]

end Fields

variable {w : Word} {i : Instr} {strict : Bool}

/-- By the branches of the decoder, the `k`-th of which is class `k - 1`: the class number and the second
key it matched, with the fields it read, are all of the word. -/
theorem encode_of_decodeLoose (h : decodeLoose w = some i) : encode i = w := by
  unfold decodeLoose at h
  split at h
  case h_1 ho | h_15 ho | h_16 ho =>
    simp only [decodeClass0, decodeClassE, decodeClassF] at h
    split at h <;> cases h
    all_goals exact packXK_of_fields ho ‹_›
  case h_9 ho =>
    simp only [decodeClass8] at h
    split at h <;> cases h
    all_goals exact pack4_of_fields ho ‹_›
  all_goals cases h
  case h_2 ho | h_3 ho | h_11 ho | h_12 ho => exact packA_of_fields ho
  case h_6 ho | h_10 ho | h_14 ho => exact pack4_of_fields ho rfl
  all_goals exact packXK_of_fields ‹_› rfl

theorem decodeLoose_eq_some_iff : decodeLoose w = some i ↔ encode i = w :=
  ⟨encode_of_decodeLoose, fun h => h ▸ decodeLoose_encode i⟩

/-- The words that decode to an instruction: its own word alone, if it is well formed. -/
theorem decodeWord_eq_ok_iff :
    decodeWord strict w = .ok i ↔ encode i = w ∧ i.wellFormedWith strict = true := by
  rw [← decodeLoose_eq_some_iff, decodeWord]
  cases decodeLoose w with
  | none => simp
  | some j =>
    by_cases hj : j.wellFormedWith strict = true
    · simp only [hj, if_true, Except.ok.injEq, Option.some.injEq]
      exact ⟨fun e => ⟨e, e ▸ hj⟩, And.left⟩
    · simp only [hj, Option.some.injEq]
      exact ⟨nofun, fun ⟨e, hi⟩ => absurd (e ▸ hi) hj⟩

theorem decodeWord_false_eq_ok_iff : decodeWord false w = .ok i ↔ encode i = w :=
  decodeWord_eq_ok_iff.trans (and_iff_left rfl)

theorem decodeWord_false_eq_error_iff :
    (∃ e, decodeWord false w = .error e) ↔ decodeLoose w = none := by
  rw [decodeWord_false]
  cases decodeLoose w <;> simp

/-! ## The opcode map (R96) -/

theorem fieldOp_of_and_F000 {m : Word} (h : w &&& 0xF000#16 = m) :
    fieldOp w = m.extractLsb' 12 4 := by
  change fieldOp w = fieldOp m
  rw [← h, ← packXK_fields w, packXK_mask, fieldOp_packXK, fieldOp_packXK]

theorem fields_of_and_F0FF {m : Word} (h : w &&& 0xF0FF#16 = m) :
    fieldOp w = m.extractLsb' 12 4 ∧ fieldNN w = m.extractLsb' 0 8 := by
  change fieldOp w = fieldOp m ∧ fieldNN w = fieldNN m
  rw [← h, ← packXK_fields w, packXK_maskSel]
  simp

theorem fields_of_and_F00F {m : Word} (h : w &&& 0xF00F#16 = m) :
    fieldOp w = m.extractLsb' 12 4 ∧ fieldN w = m.extractLsb' 0 4 := by
  change fieldOp w = fieldOp m ∧ fieldN w = fieldN m
  rw [← h, ← pack4_fields w, pack4_maskSel]
  simp

/-- A word that selects a row decodes to an instruction of that row: the mask keeps the class number and
the second key the decoder matches. -/
theorem map_opcodeRow_decodeLoose (h : selectsRow w i) :
    (decodeLoose w).map opcodeRow = some (opcodeRow i) := by
  cases i with
  | cls | ret =>
    obtain ⟨ho, hn⟩ := fields_of_and_F0FF h
    simp [decodeLoose, decodeClass0, ho, hn, opcodeRow]
  | ldReg | orReg | andReg | xorReg | addReg | subReg | shr | subnReg | shl =>
    obtain ⟨ho, hn⟩ := fields_of_and_F00F h
    simp [decodeLoose, decodeClass8, ho, hn, opcodeRow]
  | skp | sknp =>
    obtain ⟨ho, hn⟩ := fields_of_and_F0FF h
    simp [decodeLoose, decodeClassE, ho, hn, opcodeRow]
  | ldVxDt | ldVxK | ldDtVx | ldStVx | addIVx | ldF | ldB | storeRegs | loadRegs =>
    obtain ⟨ho, hn⟩ := fields_of_and_F0FF h
    simp [decodeLoose, decodeClassF, ho, hn, opcodeRow]
  | _ => simp [decodeLoose, fieldOp_of_and_F000 h, opcodeRow]

/-! ## The words without a row (R97) -/

theorem decodeClass0_eq_none_iff : decodeClass0 w = none ↔ (fieldNN w).toNat ∉ [0xE0, 0xEE] := by
  unfold decodeClass0
  split <;> simp_all

theorem decodeClass8_eq_none_iff :
    decodeClass8 w = none ↔ (fieldN w).toNat ∈ [0x8, 0x9, 0xA, 0xB, 0xC, 0xD, 0xF] := by
  have := (fieldN w).isLt
  unfold decodeClass8
  split <;> simp_all
  omega

theorem decodeClassE_eq_none_iff : decodeClassE w = none ↔ (fieldNN w).toNat ∉ [0x9E, 0xA1] := by
  unfold decodeClassE
  split <;> simp_all

theorem decodeClassF_eq_none_iff : decodeClassF w = none ↔
    (fieldNN w).toNat ∉ [0x07, 0x0A, 0x15, 0x18, 0x1E, 0x29, 0x33, 0x55, 0x65] := by
  unfold decodeClassF
  split <;> simp_all

theorem decodeLoose_eq_none_iff : decodeLoose w = none ↔
    ((fieldOp w).toNat = 0x0 ∧ decodeClass0 w = none) ∨
    ((fieldOp w).toNat = 0x8 ∧ decodeClass8 w = none) ∨
    ((fieldOp w).toNat = 0xE ∧ decodeClassE w = none) ∨
    ((fieldOp w).toNat = 0xF ∧ decodeClassF w = none) := by
  have := (fieldOp w).isLt
  unfold decodeLoose
  split
  case h_17 =>
    simp only [imp_false] at *
    omega
  all_goals simp [*]

/-! ## The strict setting (R95) -/

theorem Instr.ignoredZero_iff (i : Instr) : i.ignoredZero = true ↔
    ((fieldOp (encode i)).toNat = 0x0 → (nibbleX (encode i)).toNat = 0) ∧
    ((fieldOp (encode i)).toNat = 0x5 → (fieldN (encode i)).toNat = 0) ∧
    ((fieldOp (encode i)).toNat = 0x9 → (fieldN (encode i)).toNat = 0) := by
  cases i with
  | cls | ret | seReg | sneReg => simp [encode, Instr.ignoredZero, ← BitVec.toNat_inj]
  | _ => simp [encode, Instr.ignoredZero]

end Sys2Proof

namespace Sys2Proof.Machine

variable {s : State} {i : Instr} {r : Refusal}

/-! ## Refusals (R98, R261) -/

theorem withRange_next_ne_refused {a n : Nat} {t : State} : withRange a n (.next t) ≠ .refused r := by
  rcases withRange_cases a n (.next t) with ⟨-, he⟩ | ⟨-, -, he⟩ <;> rw [he] <;> nofun

/-- An instruction with branches completes or raises one of its faults in each of them; every other one
completes on every state. -/
theorem exec_ne_refused : exec i s ≠ .refused r := by
  cases i with
  | drw | ldB | storeRegs | loadRegs => exact withRange_next_ne_refused
  | ret z => rcases pop_cases s with ⟨-, h⟩ | ⟨_, h⟩ <;> simp [exec, execRet, h, raise]
  | call a => rcases push_cases s s.pc with ⟨-, h⟩ | ⟨_, h⟩ <;> simp [exec, execCall, h, raise]
  | skp x | sknp x =>
    cases h : keyState Config.keyIndexMode (s.reg x) s.keys <;> simp [exec, execSkp, execSknp, h, raise]
  | ldVxK x => simp only [exec, execLdVxK]; split <;> nofun
  | _ => nofun

theorem step_ne_refused : step s ≠ .refused r := by
  intro h
  rcases cycleBody_cases (hostPhase s) with ⟨f, -, hc⟩ | ⟨w, e, -, -, hc⟩ | ⟨w, i, -, -, hc⟩
  · cases hc.symm.trans h
  · cases hc.symm.trans h
  · exact exec_ne_refused (thenTimers_eq_refused.1 (hc.symm.trans h))

end Sys2Proof.Machine

namespace Sys2Proof.Proofs

open Sys2Proof.Machine

/-- Settles O33: the instruction's own word decodes to it, being well formed. -/
theorem decodeOfEncodeIsTheInstruction : Obligations.DecodeOfEncodeIsTheInstruction :=
  fun _ _ hi => decodeWord_eq_ok_iff.2 ⟨rfl, hi⟩

/-- Settles O34: only the instruction's own word decodes to it. -/
theorem encodeOfDecodeIsTheWord : Obligations.EncodeOfDecodeIsTheWord :=
  fun _ _ _ => decodeWord_eq_ok_iff.1

/-- Settles O30. A step refuses only what its instruction refuses. -/
theorem nothingIsRefused : Obligations.NothingIsRefused :=
  ⟨fun _ _ _ => exec_ne_refused, fun _ _ => step_ne_refused⟩

/-- Settles O35. A word that decodes is the word of its instruction, which selects that instruction's
row; two rows of one word are both the row of what it decodes to. -/
theorem decoderAgreesWithTheOpcodeMap : Obligations.DecoderAgreesWithTheOpcodeMap := by
  refine ⟨fun w i h => ?_, fun w i h => ?_, fun w i j hi hj => ?_⟩
  · rw [← decodeWord_false_eq_ok_iff.1 h]
    exact Laws.TableRow.every i
  · obtain ⟨j, hj, hrow⟩ := Option.map_eq_some_iff.1 (map_opcodeRow_decodeLoose h)
    exact ⟨j, decodes_of_loose hj, hrow⟩
  · exact Option.some.inj ((map_opcodeRow_decodeLoose hi).symm.trans (map_opcodeRow_decodeLoose hj))

/-- Settles O36. Class by class, the second keys with no row; and the fetch of a step reads what a fetch
before the host's part reads. -/
theorem failingWordsRaiseDecodeFailure : Obligations.FailingWordsRaiseDecodeFailure := by
  refine ⟨fun w => ?_, fun s w hf ⟨e, he⟩ => ?_⟩
  · rw [← decodeClass0_eq_none_iff, ← decodeClass8_eq_none_iff, ← decodeClassE_eq_none_iff,
      ← decodeClassF_eq_none_iff, ← decodeLoose_eq_none_iff]
    exact decodeWord_false_eq_error_iff
  · exact cycleBody_of_decode_error ((hostFrame_hostPhase s).fetch.trans hf) he

/-- Settles O37. A word that decodes is the word of its instruction, whose ignored nibbles are fields of
that word. -/
theorem strictDecodeWantsZeroIgnoredBits : Obligations.StrictDecodeWantsZeroIgnoredBits := by
  intro w i
  rw [decodeWord_eq_ok_iff, decodeWord_false_eq_ok_iff]
  refine and_congr_right ?_
  rintro rfl
  exact i.ignoredZero_iff

/-- Settles O32. Every clause is arithmetic on the word as a number. -/
theorem fieldsOfTheWord : Obligations.FieldsOfTheWord := by
  intro w
  have hx : (fieldX w).val = w.toNat / 0x100 % 16 := nibbleX_toNat w
  have hy : (fieldY w).val = w.toNat / 0x10 % 16 := nibbleY_toNat w
  simp only [hx, hy, ← BitVec.toNat_inj, fieldOp_toNat, fieldN_toNat, fieldNN_toNat, fieldNNN_toNat,
    wordOfBytes_toNat, true_and]
  refine ⟨by omega, by omega, fun hi lo h => ?_⟩
  have := lo.isLt
  omega

/-- Settles O38. Sixteen closed decodes, by evaluation. -/
theorem workedDecodes : Obligations.WorkedDecodes := by
  unfold Obligations.WorkedDecodes Decodes
  decide

end Sys2Proof.Proofs

/-!
Control transfer (40_control_flow.md R130 to R139): what RET, CALL, the jumps and the four skips give, said
once per instruction, and the printed words that decode to them.
-/

namespace Sys2Proof

variable {i : Instr} {strict : Bool}

/-- An instruction that a setting of `DECODE_STRICT` does not admit: its word is rejected for the ignored
bits (R95). -/
theorem decodeWord_encode_of_not_wellFormed (h : i.wellFormedWith strict = false) :
    decodeWord strict (encode i) = .error (.ignoredBits (encode i)) := by
  simp [decodeWord, decodeLoose_encode, h]

end Sys2Proof

namespace Sys2Proof.Machine

variable {s : State}

/-! ## Printed words (R96) -/

theorem decodes_of_eq_encode {w : Word} {i : Instr} (h : w = encode i) : Decodes w i :=
  decodeWord_false_eq_ok_iff.2 h.symm

/-- A printed word whose low byte is the field of an instruction. -/
theorem hexXK_toNat_eq_packXK {op : Nat} (ho : op < 16) (x : Reg) (nn : Byte) :
    hexXK op x nn.toNat = packXK (BitVec.ofNat 4 op) (nibbleOf x) nn := by
  rw [hexXK_eq_packXK ho x nn.isLt, BitVec.ofNat_toNat, BitVec.setWidth_eq]

/-- A printed word whose low nibble is the field of an instruction. -/
theorem hexXYN_toNat_eq_pack4 {op : Nat} (ho : op < 16) (x y : Reg) (n : Nibble) :
    hexXYN op x y n.toNat = pack4 (BitVec.ofNat 4 op) (nibbleOf x) (nibbleOf y) n := by
  rw [hexXYN_eq_pack4 ho x y n.isLt, BitVec.ofNat_toNat, BitVec.setWidth_eq]

/-! ## RET and CALL (R131, R133) -/

theorem exec_ret_of_empty (z : Nibble) (h : s.sp = 0) :
    exec (.ret z) s = .fault (.stackUnderflow s.pc) := by
  rcases pop_cases s with ⟨-, hp⟩ | ⟨hpos, -⟩
  · simp [exec, execRet, hp, raise]
  · simp [h] at hpos

theorem exec_ret_of_sp (z : Nibble) {k : Fin 16} (h : s.sp.val = k.val + 1) :
    exec (.ret z) s = .next (State.setPc
      { s with sp := ⟨k.val, by omega⟩ } (s.stack[k.val] + 2)) := by
  rcases pop_cases s with ⟨h0, -⟩ | ⟨_, hp⟩
  · simp [h0] at h
  · simp [exec, execRet, hp, h]

theorem exec_call_of_full (a : Addr) (h : s.sp = 16) :
    exec (.call a) s = .fault (.stackOverflow s.pc) := by
  simp [exec, execCall, push_of_full s.pc h, raise]

theorem exec_call_of_sp (a : Addr) {k : Fin 16} (h : s.sp.val = k.val) :
    exec (.call a) s = .next (State.setPc
      { s with stack := s.stack.set k.val s.pc, sp := ⟨k.val + 1, by omega⟩ } (zext16 a)) := by
  rcases push_cases s s.pc with ⟨h16, -⟩ | ⟨_, hp⟩
  · rw [h16] at h
    exact absurd h (Nat.ne_of_gt k.isLt)
  · simp [exec, execCall, hp, h]

/-! ## Jumps (R132, R138) -/

theorem zext16_toNat (a : Addr) : (zext16 a).toNat = a.toNat :=
  BitVec.toNat_setWidth_of_le (by decide)

theorem toNat_jpV0_target (b : Byte) (a : Addr) :
    (zext16 b + zext16 a).toNat = b.toNat + a.toNat := by
  have := a.isLt
  have := b.isLt
  simp only [zext16, BitVec.toNat_add, BitVec.toNat_setWidth]
  omega

theorem SameButRegs.setPc {s t : State} (h : SameButRegs s t) (w : Word) : SameButRegs s (t.setPc w) := h

/-! ## Skips (R130) -/

theorem sameRegs_skipIf (s : State) (c : Bool) : SameRegsBut [] s (s.skipIf c) :=
  fun k _ => reg_skipIf s c k

theorem sameButRegs_skipIf (s : State) (c : Bool) : SameButRegs s (s.skipIf c) := by
  cases c <;> exact (SameButRegs.refl s).setPc _

theorem skipIf_beq_pc (s : State) (a b : Byte) :
    (s.skipIf (a == b)).pc = if a = b then s.pc + 4 else s.pc + 2 := by
  simp

theorem skipIf_bne_pc (s : State) (a b : Byte) :
    (s.skipIf (a != b)).pc = if a = b then s.pc + 2 else s.pc + 4 := by
  simp

end Sys2Proof.Machine

namespace Sys2Proof.Proofs

open Sys2Proof.Machine

/-- Settles O56. The CALL's slot is the newest one live in `u`, so RET reads the CALL's address there and
lowers SP to it; the caller's live slots lie below it. -/
theorem returnUndoesCall : Obligations.ReturnUndoesCall := by
  intro nnn z s hs
  refine ⟨_, exec_call_of_sp nnn (k := ⟨s.sp.val, hs⟩) rfl, fun u hstack hsp => ?_⟩
  rw [State.setPc_stack] at hstack
  rw [State.setPc_sp] at hsp
  refine ⟨_, exec_ret_of_sp z (k := ⟨s.sp.val, hs⟩) (by simp [hsp]), ?_, rfl, fun k hk => ?_⟩
  · rw [State.setPc_pc, hstack, Vector.getElem_set_self]
  · rw [State.setPc_stack, hstack, Vector.getElem_set_ne _ _ (Nat.ne_of_gt hk)]

/-- Settles O1. With every live slot at most 4094 the sum does not wrap. -/
theorem returnPopsTheCallSite : Obligations.ReturnPopsTheCallSite := by
  intro z s
  refine ⟨decodes_of_eq_encode (hexZ_eq_packXK (by decide) z (by decide)), exec_ret_of_empty z,
    fun k hk => ⟨_, exec_ret_of_sp z hk, rfl, rfl, rfl, fun _ _ => rfl, fun _ => rfl, rfl, ⟨rfl, rfl⟩,
      ⟨rfl, rfl⟩, ⟨rfl, rfl, rfl, rfl, rfl, rfl⟩, fun hlive => ?_⟩⟩
  have hslot : s.stack[k.val].toNat ≤ 4094 := hlive k (by omega)
  rw [State.setPc_pc]
  constructor <;> bv_omega

/-- Settles O2. -/
theorem jumpSetsPc : Obligations.JumpSetsPc := by
  intro nnn s
  have hpc : (s.setPc (zext16 nnn)).pc.toNat = nnn.toNat := zext16_toNat nnn
  refine ⟨decodes_of_eq_encode (hexWord_eq_packA (by decide) nnn), s.setPc (zext16 nnn), rfl, hpc,
    fun _ _ => rfl, (SameButRegs.refl s).setPc _, fun hself => ?_, fun hn => ?_⟩
  · have : zext16 nnn = s.pc := BitVec.eq_of_toNat_eq (hpc.trans hself.symm)
    rw [this]
    rfl
  · rw [fetch_of_gt (by omega), hpc, hn]

/-- Settles O3. Only the slot at SP is written. -/
theorem callPushesItsOwnAddress : Obligations.CallPushesItsOwnAddress := by
  intro nnn s
  refine ⟨decodes_of_eq_encode (hexWord_eq_packA (by decide) nnn), exec_call_of_full nnn,
    fun k hk => ⟨_, exec_call_of_sp nnn hk, zext16_toNat nnn, rfl, ?_, fun j hj => ?_, fun _ _ => rfl,
      fun _ => rfl, rfl, ⟨rfl, rfl⟩, ⟨rfl, rfl⟩, ⟨rfl, rfl, rfl, rfl, rfl, rfl⟩⟩⟩
  · exact Vector.getElem_set_self k.isLt
  · exact Vector.getElem_set_ne k.isLt j.isLt (Fin.val_ne_of_ne hj.symm)

/-- Settles O4. -/
theorem skipOnImmediate : Obligations.SkipOnImmediate := fun x nn s =>
  ⟨decodes_of_eq_encode (hexXK_toNat_eq_packXK (by decide) x nn),
    decodes_of_eq_encode (hexXK_toNat_eq_packXK (by decide) x nn),
    ⟨_, rfl, skipIf_beq_pc s _ _, sameRegs_skipIf s _, sameButRegs_skipIf s _⟩,
    ⟨_, rfl, skipIf_bne_pc s _ _, sameRegs_skipIf s _, sameButRegs_skipIf s _⟩⟩

/-- Settles O5. Under the strict setting the low nibble is what makes the word's instruction well formed. -/
theorem skipOnRegisters : Obligations.SkipOnRegisters := by
  intro x y n s
  have hse : hexXYN 0x5 x y n.toNat = encode (.seReg x y n) := hexXYN_toNat_eq_pack4 (by decide) x y n
  have hsne : hexXYN 0x9 x y n.toNat = encode (.sneReg x y n) := hexXYN_toNat_eq_pack4 (by decide) x y n
  refine ⟨decodes_of_eq_encode hse, decodes_of_eq_encode hsne, fun hn => ?_,
    ⟨_, rfl, skipIf_beq_pc s _ _, ?_, sameRegs_skipIf s _, sameButRegs_skipIf s _⟩,
    ⟨_, rfl, skipIf_bne_pc s _ _, ?_, sameRegs_skipIf s _, sameButRegs_skipIf s _⟩⟩
  · have hbad : (n == 0) = false := beq_eq_false_iff_ne.2 hn
    rw [hse, hsne]
    exact ⟨decodeWord_encode_of_not_wellFormed hbad, decodeWord_encode_of_not_wellFormed hbad⟩
  · rintro rfl
    rw [skipIf_beq_pc, if_pos rfl]
  · rintro rfl
    rw [skipIf_bne_pc, if_pos rfl]

/-- Settles O6. -/
theorem jumpWithOffset : Obligations.JumpWithOffset := fun nnn s =>
  ⟨decodes_of_eq_encode (hexWord_eq_packA (by decide) nnn), _, rfl, toNat_jpV0_target _ nnn,
    toNat_jpV0_target_le _ nnn, fun _ _ => rfl, (SameButRegs.refl s).setPc _, fetch_of_gt⟩

end Sys2Proof.Proofs

/-!
Register load, arithmetic, logic, shift and random (41_alu.md R160 to R173): what every instruction but RND
does with the cycle's random byte, the two shapes of an ALU instruction's next state, and the values of the
byte operations and of the flags as numbers.
-/

namespace Sys2Proof.Machine

/-! ## The cycle's random byte (R173, R277) -/

/-- `s` in a cycle with another random byte and another number of cycles begun. -/
def State.withRnd (s : State) (r : Option Byte) (c : Nat) : State := { s with rnd := r, cycles := c }

/-- A result with its next state, where it has one, changed. -/
def mapNext (f : State → State) : Result → Result
  | .next t => .next (f t)
  | .fault e => .fault e
  | .refused e => .refused e

section RandomByte

variable (r : Option Byte) (c : Nat)

@[simp] theorem State.withRnd_pc (s : State) : (s.withRnd r c).pc = s.pc := rfl
@[simp] theorem State.withRnd_keys (s : State) : (s.withRnd r c).keys = s.keys := rfl
@[simp] theorem reg_withRnd (s : State) (k : Reg) : (s.withRnd r c).reg k = s.reg k := rfl

theorem pop_withRnd (s : State) : (s.withRnd r c).pop = s.pop.map fun p => (p.1, p.2.withRnd r c) := by
  by_cases h : 0 < s.sp.val <;> simp [State.pop, State.withRnd, h]

theorem push_withRnd (s : State) (w : Word) : (s.withRnd r c).push w = (s.push w).map (·.withRnd r c) := by
  by_cases h : s.sp.val < 16 <;> simp [State.push, State.withRnd, h]

theorem skipIf_withRnd (s : State) (b : Bool) : (s.withRnd r c).skipIf b = (s.skipIf b).withRnd r c := by
  cases b <;> rfl

/-- The range check speaks of the access alone, so it lets a change of the next state through. -/
theorem mapNext_withRange (f : State → State) (a n : Nat) (q : Result) :
    mapNext f (withRange a n q) = withRange a n (mapNext f q) := by
  unfold withRange
  split <;> rfl

/-- Under the default `KEY_SELECT` the free choice, indexed by the count of cycles, is not read (D9). -/
theorem selectKey_default (choice : Nat) (keys : Keys) :
    selectKey Config.keySelect choice keys = (pressedKeys keys).head? := rfl

/-- The meaning of every instruction but RND commutes with a change of the random byte and the count of
cycles. -/
theorem exec_withRnd {i : Instr} (hi : ∀ x nn, i ≠ .rnd x nn) (s : State) :
    exec i (s.withRnd r c) = mapNext (·.withRnd r c) (exec i s) := by
  cases i with
  | rnd x nn => exact absurd rfl (hi x nn)
  | ret =>
    simp only [exec, execRet, pop_withRnd]
    cases s.pop <;> rfl
  | call =>
    simp only [exec, execCall, State.withRnd_pc, push_withRnd]
    cases s.push s.pc <;> rfl
  | seImm | sneImm | seReg | sneReg => exact congrArg _ (skipIf_withRnd r c s _)
  | skp x | sknp x =>
    simp only [exec, execSkp, execSknp, reg_withRnd, State.withRnd_keys, skipIf_withRnd]
    cases keyState Config.keyIndexMode (s.reg x) s.keys <;> rfl
  | ldVxK =>
    simp only [exec, execLdVxK, selectKey_default, State.withRnd_keys]
    cases (pressedKeys s.keys).head? <;> rfl
  | drw | ldB | storeRegs | loadRegs =>
    simp only [exec, execDrw, execLdB, execStoreRegs, execLoadRegs, mapNext_withRange]
    rfl
  | _ => rfl

end RandomByte

/-! ## The two shapes of an ALU instruction (R160, R161) -/

theorem sameRegsBut_write (s : State) (x : Reg) (b : Byte) : SameRegsBut [x] s (s.setReg x b).advance :=
  fun _ hk => reg_setReg_other s b (List.ne_of_not_mem_cons hk)

theorem sameButRegs_write (s : State) (x : Reg) (b : Byte) : SameButRegs s (s.setReg x b).advance :=
  ((SameButRegs.refl s).setReg x b).advance

/-- The state a flag-writing instruction gives under the default `VF_ALIAS`. -/
def State.writeFlagReg (s : State) (x : Reg) (flag : Bool) (b : Byte) : State :=
  ((s.setReg VF (flagByte flag)).setReg x b).advance

section FlagWrite

variable (s : State) (x : Reg) (flag : Bool) (b : Byte)

theorem reg_writeFlagReg_same : (s.writeFlagReg x flag b).reg x = b := reg_setReg_same _ x b

theorem reg_writeFlagReg_VF {x : Reg} (hx : x ≠ VF) : (s.writeFlagReg x flag b).reg VF = flagByte flag := by
  rw [State.writeFlagReg, reg_flagResult, if_neg hx.symm, if_pos rfl]

theorem sameRegsBut_writeFlagReg : SameRegsBut [x, VF] s (s.writeFlagReg x flag b) := by
  intro k hk
  obtain ⟨hkx, hkf⟩ : k ≠ x ∧ k ≠ VF := by simpa using hk
  rw [State.writeFlagReg, reg_flagResult, if_neg hkx, if_neg hkf]

theorem sameButRegs_writeFlagReg : SameButRegs s (s.writeFlagReg x flag b) :=
  (((SameButRegs.refl s).setReg VF _).setReg x b).advance

end FlagWrite

section FlagWriters

variable (x y : Reg) (s : State)

theorem exec_addReg : exec (.addReg x y) s =
    .next (s.writeFlagReg x (carry (s.reg x) (s.reg y)) (addBytes (s.reg x) (s.reg y))) := rfl

theorem exec_subReg : exec (.subReg x y) s =
    .next (s.writeFlagReg x (noBorrow (s.reg x) (s.reg y)) (subBytes (s.reg x) (s.reg y))) := rfl

theorem exec_subnReg : exec (.subnReg x y) s =
    .next (s.writeFlagReg x (noBorrow (s.reg y) (s.reg x)) (subBytes (s.reg y) (s.reg x))) := rfl

theorem exec_shr : exec (.shr x y) s =
    .next (s.writeFlagReg x (shiftOutRight (s.reg x)) (s.reg x >>> 1)) := rfl

theorem exec_shl : exec (.shl x y) s =
    .next (s.writeFlagReg x (shiftOutLeft (s.reg x)) (s.reg x <<< 1)) := rfl

end FlagWriters

/-! ## Byte operations and flags as numbers (R160, R168 to R172) -/

section Bytes

variable (a b : Byte)

theorem subBytes_toNat : ((subBytes a b).toNat : Int) = (a.toNat - b.toNat : Int) % 256 := by
  rw [subBytes, BitVec.toNat_ofInt]
  omega

theorem shiftRight_one_toNat : (a >>> 1).toNat = a.toNat / 2 := by
  rw [BitVec.toNat_ushiftRight, Nat.shiftRight_eq_div_pow, pow_one]

theorem shiftLeft_one_toNat : (a <<< 1).toNat = 2 * a.toNat % 256 := by
  rw [BitVec.toNat_shiftLeft, Nat.shiftLeft_eq, pow_one, mul_comm]

theorem flagByte_decide (p : Prop) [Decidable p] : flagByte (decide p) = if p then 1 else 0 := by
  simp only [flagByte, decide_eq_true_eq]

theorem flagByte_shiftOutRight_toNat : (flagByte (shiftOutRight a)).toNat = a.toNat % 2 := by
  rw [flagByte_toNat, shiftOutRight, BitVec.getLsbD, Nat.testBit_zero]
  simp only [decide_eq_true_eq]
  split <;> omega

theorem flagByte_shiftOutLeft_toNat : (flagByte (shiftOutLeft a)).toNat = a.toNat / 128 := by
  have := a.isLt
  rw [flagByte_toNat, shiftOutLeft, BitVec.getLsbD, Nat.testBit_eq_decide_div_mod_eq]
  simp only [decide_eq_true_eq]
  split <;> omega

end Bytes

end Sys2Proof.Machine

namespace Sys2Proof.Proofs

open Sys2Proof.Machine

/-- Settles O31. The changed run is the run with its next state changed, so it completes or faults alike. -/
theorem onlyRndReadsTheRandomByte : Obligations.OnlyRndReadsTheRandomByte := by
  intro i s r c hi
  have hrun : exec i { s with rnd := r, cycles := c } = mapNext (·.withRnd r c) (exec i s) :=
    exec_withRnd r c hi s
  exact ⟨fun _ ht => hrun.trans (congrArg _ ht), fun _ hf => hrun.trans (congrArg _ hf)⟩

/-- Settles O7. -/
theorem loadAndAddImmediate : Obligations.LoadAndAddImmediate := fun x nn s =>
  ⟨decodes_of_eq_encode (hexXK_toNat_eq_packXK (by decide) x nn),
    decodes_of_eq_encode (hexXK_toNat_eq_packXK (by decide) x nn),
    ⟨_, rfl, reg_setReg_same s x nn, rfl, sameRegsBut_write s x _, sameButRegs_write s x _⟩,
    ⟨(s.setReg x (addBytes (s.reg x) nn)).advance, rfl,
      (congrArg _ (reg_setReg_same s x _)).trans (addBytes_toNat _ nn), rfl, sameRegsBut_write s x _,
      sameButRegs_write s x _⟩⟩

/-- Settles O8. -/
theorem moveAndLogic : Obligations.MoveAndLogic := by
  intro x y s
  have hdec (n : Nat) (hn : n < 16) := hexXYN_eq_pack4 (op := 0x8) (by decide) x y hn
  have hreg (b : Byte) : ((s.setReg x b).advance).reg x = b := reg_setReg_same s x b
  refine ⟨decodes_of_eq_encode (hdec 0x0 (by decide)), decodes_of_eq_encode (hdec 0x1 (by decide)),
    decodes_of_eq_encode (hdec 0x2 (by decide)), decodes_of_eq_encode (hdec 0x3 (by decide)),
    ⟨_, rfl, hreg _, rfl, sameRegsBut_write s x _, sameButRegs_write s x _⟩,
    ⟨_, rfl, fun j => ?_, rfl, sameRegsBut_write s x _, sameButRegs_write s x _⟩,
    ⟨_, rfl, fun j => ?_, rfl, sameRegsBut_write s x _, sameButRegs_write s x _⟩,
    ⟨_, rfl, fun j => ?_, rfl, sameRegsBut_write s x _, sameButRegs_write s x _⟩⟩
  · rw [hreg, BitVec.getLsbD_or]
  · rw [hreg, BitVec.getLsbD_and]
  · rw [hreg, BitVec.getLsbD_xor]

/-- Settles O12. -/
theorem randomByteAndImmediate : Obligations.RandomByteAndImmediate := by
  intro x nn s
  have hreg : ((s.setReg x (s.rndByte &&& nn)).advance).reg x = s.rndByte &&& nn := reg_setReg_same s x _
  refine ⟨decodes_of_eq_encode (hexXK_toNat_eq_packXK (by decide) x nn), _, rfl, fun b hb => ?_, hreg,
    fun j hj => ?_, rfl, sameRegsBut_write s x _, sameButRegs_write s x _⟩
  · rw [hreg, State.rndByte, hb, Option.getD_some]
  · rw [hreg, BitVec.getLsbD_and, hj, Bool.and_false]

/-- Settles O9. -/
theorem addRegistersSetsCarry : Obligations.AddRegistersSetsCarry := by
  intro x y s
  refine ⟨decodes_of_eq_encode (hexXYN_eq_pack4 (by decide) x y (by decide)),
    _, exec_addReg x y s, ?_, fun hx => ?_, rfl,
    sameRegsBut_writeFlagReg s x _ _, sameButRegs_writeFlagReg s x _ _⟩
  · rw [reg_writeFlagReg_same, addBytes_toNat]
  · rw [reg_writeFlagReg_VF s _ _ hx, carry, flagByte_decide]

/-- Settles O10. -/
theorem subtractSetsNoBorrow : Obligations.SubtractSetsNoBorrow := by
  intro x y s
  refine ⟨decodes_of_eq_encode (hexXYN_eq_pack4 (by decide) x y (by decide)),
    decodes_of_eq_encode (hexXYN_eq_pack4 (by decide) x y (by decide)),
    ⟨_, exec_subReg x y s, ?_, fun hx => ?_, rfl, sameRegsBut_writeFlagReg s x _ _,
      sameButRegs_writeFlagReg s x _ _⟩,
    ⟨_, exec_subnReg x y s, ?_, fun hx => ?_, rfl, sameRegsBut_writeFlagReg s x _ _,
      sameButRegs_writeFlagReg s x _ _⟩⟩
  · rw [reg_writeFlagReg_same, subBytes_toNat]
  · rw [reg_writeFlagReg_VF s _ _ hx, noBorrow, flagByte_decide]
  · rw [reg_writeFlagReg_same, subBytes_toNat]
  · rw [reg_writeFlagReg_VF s _ _ hx, noBorrow, flagByte_decide]

/-- Settles O11. -/
theorem shiftMovesOneBitToVf : Obligations.ShiftMovesOneBitToVf := by
  intro x y s
  refine ⟨decodes_of_eq_encode (hexXYN_eq_pack4 (by decide) x y (by decide)),
    decodes_of_eq_encode (hexXYN_eq_pack4 (by decide) x y (by decide)),
    ⟨_, exec_shr x y s, ?_, fun hx => ?_, rfl,
      sameRegsBut_writeFlagReg s x _ _, sameButRegs_writeFlagReg s x _ _⟩,
    ⟨_, exec_shl x y s, ?_, fun hx => ?_, rfl,
      sameRegsBut_writeFlagReg s x _ _, sameButRegs_writeFlagReg s x _ _⟩⟩
  · rw [reg_writeFlagReg_same, shiftRight_one_toNat]
  · rw [reg_writeFlagReg_VF s _ _ hx, flagByte_shiftOutRight_toNat]
  · rw [reg_writeFlagReg_same, shiftLeft_one_toNat]
  · rw [reg_writeFlagReg_VF s _ _ hx, flagByte_shiftOutLeft_toNat]

end Sys2Proof.Proofs

/-!
Index register and memory (42_index_memory.md R200 to R206): what the instructions on I give as numbers, and
what a store and a load through I change and leave alone.
-/

namespace Sys2Proof.Machine

variable {s : State} {x : Reg}

/-! ## The index register (R200 to R202) -/

theorem add_zext16_byte_toNat (w : Word) (b : Byte) :
    (w + zext16 b).toNat = (w.toNat + b.toNat) % 65536 := by
  rw [BitVec.toNat_add, zext16, BitVec.toNat_setWidth_of_le (by decide)]

/-- The font address of the whole byte: at most 5 * 255, so it does not wrap. -/
theorem fontAddress_toNat (b : Byte) : (BitVec.ofNat 16 (5 * b.toNat)).toNat = 5 * b.toNat :=
  Nat.mod_eq_of_lt (by have := b.isLt; omega)

/-- What a write of I leaves alone. -/
theorem frame_setI (s : State) (w : Word) :
    SameRegsBut [] s (s.setI w).advance ∧ SameMem s (s.setI w).advance ∧
      SameStack s (s.setI w).advance ∧ SameTimers s (s.setI w).advance ∧
      SameDisplay s (s.setI w).advance ∧ SameHost s (s.setI w).advance :=
  ⟨fun _ _ => rfl, fun _ => rfl, ⟨rfl, rfl⟩, ⟨rfl, rfl⟩, ⟨rfl, rfl⟩, rfl, rfl, rfl, rfl, rfl, rfl⟩

/-! ## Stores through I (R203, R204, R206) -/

theorem exec_storeRegs_of_gt (h : 4095 < s.base + x.val) :
    exec (.storeRegs x) s = .fault (.addressOutOfRange (s.base + x.val)) :=
  withRange_of_out x.val.succ_ne_zero (by omega)

theorem exec_ldB_of_le (h : s.base ≤ 4093) :
    exec (.ldB x) s = .next (s.storeBytes s.base (bcdDigits (s.reg x))).advance :=
  withRange_of_inRange (Or.inr (by omega))

theorem exec_ldB_of_gt (h : 4093 < s.base) :
    exec (.ldB x) s = .fault (.addressOutOfRange (s.base + 2)) :=
  withRange_of_out (by decide) (by omega)

/-- What a store that passes the range check does to memory outside its bytes. -/
theorem sameMemBut_storeBytes {a n : Nat} {bs : List Byte} (hm : s.mem.wf = true) (hn : bs.length = n)
    (ha : a + n ≤ 4096) :
    SameMemBut a n s (s.storeBytes a bs).advance ∧ (s.storeBytes a bs).advance.mem.wf = true := by
  subst hn
  exact ⟨fun _ hb => byteAt_storeBytes_outside hm ha hb, Memory.wf_writeBytes hm ha⟩

/-- What a store leaves alone beside memory. -/
theorem frame_storeBytes (s : State) (a : Nat) (bs : List Byte) :
    SameRegsBut [] s (s.storeBytes a bs).advance ∧ SameStack s (s.storeBytes a bs).advance ∧
      SameTimers s (s.storeBytes a bs).advance ∧ SameDisplay s (s.storeBytes a bs).advance ∧
      SameHost s (s.storeBytes a bs).advance :=
  ⟨fun _ _ => rfl, ⟨rfl, rfl⟩, ⟨rfl, rfl⟩, ⟨rfl, rfl⟩, rfl, rfl, rfl, rfl, rfl, rfl⟩

/-- The three stored digits as numbers, by their addresses. -/
theorem byteAt_storeBytes_bcdDigits {a : Nat} (hm : s.mem.wf = true) (ha : a ≤ 4093) (b : Byte) :
    ((s.storeBytes a (bcdDigits b)).byteAt a).toNat = b.toNat / 100 ∧
      ((s.storeBytes a (bcdDigits b)).byteAt (a + 1)).toNat = b.toNat / 10 % 10 ∧
      ((s.storeBytes a (bcdDigits b)).byteAt (a + 2)).toNat = b.toNat % 10 := by
  have hlt := b.isLt
  have hin : a + (bcdDigits b).length ≤ 4096 := by rw [length_bcdDigits]; omega
  have hread {k : Nat} (hk : k < 3) :
      (s.storeBytes a (bcdDigits b)).byteAt (a + k) = (bcdDigits b)[k] :=
    byteAt_storeBytes_inside hm hin hk
  refine ⟨(congrArg _ (hread (k := 0) (by decide))).trans ?_,
    (congrArg _ (hread (k := 1) (by decide))).trans ?_,
    (congrArg _ (hread (k := 2) (by decide))).trans ?_⟩
  all_goals exact Nat.mod_eq_of_lt (by omega)

/-! ## The load through I (R205, R206) -/

theorem exec_loadRegs_of_le (h : s.base + x.val ≤ 4095) :
    exec (.loadRegs x) s = .next (s.loadV (s.bytesAt s.base (x.val + 1))).advance :=
  withRange_of_inRange (Or.inr (by omega))

theorem exec_loadRegs_of_gt (h : 4095 < s.base + x.val) :
    exec (.loadRegs x) s = .fault (.addressOutOfRange (s.base + x.val)) :=
  withRange_of_out x.val.succ_ne_zero (by omega)

/-- A register after V0 to Vx are loaded from an address. -/
theorem reg_loadV_bytesAt (a : Nat) (k : Reg) :
    (s.loadV (s.bytesAt a (x.val + 1))).reg k =
      if k ≤ x then s.byteAt (a + k.val) else s.reg k := by
  have hlen : (s.bytesAt a (x.val + 1)).length = x.val + 1 := Memory.length_readBytes ..
  by_cases hk : k ≤ x
  · have hin : k.val < (s.bytesAt a (x.val + 1)).length := by
      rw [hlen]; exact Nat.lt_succ_of_le hk
    rw [if_pos hk, reg_loadV, dif_pos hin]
    exact Memory.getElem_readBytes ..
  · rw [if_neg hk]
    exact reg_loadV_above (not_le.1 hk) hlen

theorem SameButRegs.loadV {s t : State} (h : SameButRegs s t) (bs : List Byte) :
    SameButRegs s (t.loadV bs) := h

end Sys2Proof.Machine

namespace Sys2Proof.Proofs

open Sys2Proof.Machine

/-- Settles O15. The digits recombine because they are the byte's own quotients and remainders. -/
theorem storeDecimalDigits : Obligations.StoreDecimalDigits := by
  intro x s hm
  refine ⟨decodes_of_eq_encode (hexXK_eq_packXK (by decide) x (by decide)), exec_ldB_of_gt,
    fun hr => ⟨_, exec_ldB_of_le hr, ?_⟩⟩
  obtain ⟨h0, h1, h2⟩ := byteAt_storeBytes_bcdDigits hm hr (s.reg x)
  obtain ⟨hout, hwf⟩ :=
    sameMemBut_storeBytes hm (length_bcdDigits (s.reg x)) (show s.base + 3 ≤ 4096 by omega)
  refine ⟨h0, h1, h2, ?_, hout, hwf, rfl, rfl, frame_storeBytes s _ _⟩
  have hsum : 100 * ((s.reg x).toNat / 100) + 10 * ((s.reg x).toNat / 10 % 10) + (s.reg x).toNat % 10 =
      (s.reg x).toNat := by omega
  rwa [← h0, ← h1, ← h2] at hsum

/-- Settles O16. -/
theorem dumpRegistersToMemory : Obligations.DumpRegistersToMemory := by
  intro x s hm
  refine ⟨decodes_of_eq_encode (hexXK_eq_packXK (by decide) x (by decide)), exec_storeRegs_of_gt,
    fun hr => ⟨_, exec_storeRegs_of_le hr, fun _ hk => byteAt_storeBytes_regsTo hm hr hk, ?_⟩⟩
  obtain ⟨hout, hwf⟩ :=
    sameMemBut_storeBytes hm (length_regsTo s x) (show s.base + (x.val + 1) ≤ 4096 by omega)
  exact ⟨hout, hwf, rfl, rfl, frame_storeBytes s _ _⟩

/-- Settles O17. -/
theorem fillRegistersFromMemory : Obligations.FillRegistersFromMemory := fun x s =>
  ⟨decodes_of_eq_encode (hexXK_eq_packXK (by decide) x (by decide)), exec_loadRegs_of_gt,
    fun hr => ⟨_, exec_loadRegs_of_le hr, reg_loadV_bytesAt s.base, rfl,
      ((SameButRegs.refl s).loadV _).advance⟩⟩

/-- Settles O13. -/
theorem loadIndexImmediate : Obligations.LoadIndexImmediate := fun nnn s =>
  ⟨decodes_of_eq_encode (hexWord_eq_packA (by decide) nnn), _, rfl, zext16_toNat nnn,
    zext16_toNat_le nnn, rfl, frame_setI s _⟩

/-- Settles O14. -/
theorem addIndexAndFontAddress : Obligations.AddIndexAndFontAddress := by
  intro x s
  have hi : ((s.setI (BitVec.ofNat 16 (5 * (s.reg x).toNat))).advance).i.toNat = 5 * (s.reg x).toNat :=
    fontAddress_toNat (s.reg x)
  refine ⟨decodes_of_eq_encode (hexXK_eq_packXK (by decide) x (by decide)),
    decodes_of_eq_encode (hexXK_eq_packXK (by decide) x (by decide)),
    ⟨_, rfl, add_zext16_byte_toNat s.i (s.reg x), rfl, frame_setI s _⟩,
    ⟨_, rfl, hi, ?_, rfl, frame_setI s _⟩⟩
  have := (s.reg x).isLt
  omega

end Sys2Proof.Proofs

/-!
Display (43_display.md R220 to R226): the 1 bits of a sprite as a set of pixels, the state a DRW gives, and
the framebuffer and VF of that state in terms of those pixels.
-/

namespace Sys2Proof.Machine

variable {s t u : State} {i : Instr} {x y : Reg} {n py px : Nat}

/-! ## The lit pixels of a sprite (R220, R222) -/

theorem getElem?_bytesAt (s : State) (a n k : Nat) :
    (s.bytesAt a n)[k]? = if k < n then some (s.byteAt (a + k)) else none := by
  have hlen : (s.bytesAt a n).length = n := Memory.length_readBytes ..
  by_cases hk : k < n
  · rw [if_pos hk, List.getElem?_eq_getElem (hlen.symm ▸ hk)]
    exact congrArg some (Memory.getElem_readBytes ..)
  · rw [if_neg hk, List.getElem?_eq_none (by omega)]

/-- The pixels a sprite lights, by the pixel: it lies in the clipped box, and the sprite bit for it is
1 (R223). -/
theorem spriteLit_iff_box : s.spriteLit x y n py px ↔
    (s.spriteX x ≤ px ∧ px < s.spriteX x + 8 ∧ px < 64) ∧
    (s.spriteY y ≤ py ∧ py < s.spriteY y + n ∧ py < 32) ∧
    (s.byteAt (s.base + (py - s.spriteY y))).getLsbD (7 - (px - s.spriteX x)) = true := by
  constructor
  · rintro ⟨r, c, hr, hc, rfl, rfl, hy, hx, hb⟩
    rw [State.spriteX, State.spriteY, Nat.add_sub_cancel_left, Nat.add_sub_cancel_left]
    exact ⟨by omega, by omega, hb⟩
  · rintro ⟨hx, hy, hb⟩
    exact ⟨py - s.spriteY y, px - s.spriteX x, by omega, by omega, (Nat.add_sub_cancel' hy.1).symm,
      (Nat.add_sub_cancel' hx.1).symm, by omega, by omega, hb⟩

/-- The rows that DRW draws light the pixels of `spriteLit`. -/
theorem litRows_bytesAt_iff :
    litRows (s.spriteX x) (s.bytesAt s.base n) (s.spriteY y) py px = true ↔ s.spriteLit x y n py px := by
  rw [spriteLit_iff_box, litRows, getElem?_bytesAt, Bool.and_eq_true, decide_eq_true_eq]
  by_cases hr : py - s.spriteY y < n
  · rw [if_pos hr]
    constructor
    · rintro ⟨hbox, hb⟩
      exact ⟨by omega, by omega, hb⟩
    · rintro ⟨hx, hy, hb⟩
      exact ⟨by omega, hb⟩
  · rw [if_neg hr]
    constructor
    · rintro ⟨-, hb⟩
      cases hb
    · rintro ⟨-, hy, -⟩
      omega

/-- The lit pixels depend on the start position, I and the sprite's bytes only (R225). -/
theorem spriteLit_congr (hi : u.i = s.i)
    (hb : ∀ r, r < n → u.byteAt (s.i.toNat + r) = s.byteAt (s.i.toNat + r))
    (hx : u.spriteX x = s.spriteX x) (hy : u.spriteY y = s.spriteY y) :
    u.spriteLit x y n py px ↔ s.spriteLit x y n py px := by
  rw [spriteLit_iff_box, spriteLit_iff_box, hx, hy, State.base, State.base, hi]
  refine and_congr_right fun _ => and_congr_right fun hrow => ?_
  rw [hb _ (by omega)]

/-! ## The drawing (R222) -/

theorem drawn_pixel_of_lit (h : s.spriteLit x y n py px) :
    (s.drawn x y n).1.pixel py px = !s.fb.pixel py px := by
  rw [State.drawn, drawRows_pixel, litRows_bytesAt_iff.2 h, Bool.xor_true]

theorem drawn_pixel_of_not_lit (h : ¬ s.spriteLit x y n py px) :
    (s.drawn x y n).1.pixel py px = s.fb.pixel py px := by
  rw [State.drawn, drawRows_pixel, Bool.eq_false_iff.2 (mt litRows_bytesAt_iff.1 h), Bool.xor_false]

theorem drawn_hit_iff :
    (s.drawn x y n).2 = true ↔ ∃ py px, s.spriteLit x y n py px ∧ s.fb.pixel py px = true := by
  simp only [State.drawn, drawRows_hit, litRows_bytesAt_iff, Bool.false_eq_true, false_or]

/-- A sprite that lights no pixel leaves the framebuffer as it is. -/
theorem drawn_fb_of_no_lit (h : ¬ ∃ py px, s.spriteLit x y n py px) : (s.drawn x y n).1 = s.fb :=
  Screen.ext_pixel fun py px _ _ => drawn_pixel_of_not_lit fun hl => h ⟨py, px, hl⟩

/-! ## What DRW does (R222) -/

/-- The state a DRW that passes the range check gives. -/
def State.afterDraw (s : State) (x y : Reg) (n : Nat) : State :=
  ((s.setScreen (s.drawn x y n).1).setReg VF (flagByte (s.drawn x y n).2)).advance

theorem exec_drw_of_inRange {n : Nibble} (h : n.toNat = 0 ∨ s.base + n.toNat ≤ 4096) :
    exec (.drw x y n) s = .next (s.afterDraw x y n.toNat) := withRange_of_inRange h

theorem exec_drw_of_out {n : Nibble} (hn : n ≠ 0) (h : 4095 < s.base + n.toNat - 1) :
    exec (.drw x y n) s = .fault (.addressOutOfRange (s.base + n.toNat - 1)) :=
  withRange_of_out (fun h0 => hn (BitVec.eq_of_toNat_eq h0)) (by omega)

theorem drw_next_inv {n : Nibble} (h : exec (.drw x y n) s = .next t) :
    (n.toNat = 0 ∨ s.base + n.toNat ≤ 4096) ∧ t = s.afterDraw x y n.toNat := withRange_next_inv h

@[simp] theorem afterDraw_fb : (s.afterDraw x y n).fb = (s.drawn x y n).1 := rfl

@[simp] theorem reg_afterDraw_VF : (s.afterDraw x y n).reg VF = flagByte (s.drawn x y n).2 :=
  reg_setReg_same _ VF _

theorem flagByte_eq_one_iff (b : Bool) : flagByte b = 1 ↔ b = true := by
  cases b <;> decide

theorem flagByte_eq_zero_iff (b : Bool) : flagByte b = 0 ↔ b = false := by
  cases b <;> decide

theorem reg_afterDraw_VF_eq_one_iff :
    (s.afterDraw x y n).reg VF = 1 ↔ ∃ py px, s.spriteLit x y n py px ∧ s.fb.pixel py px = true := by
  rw [reg_afterDraw_VF, flagByte_eq_one_iff, drawn_hit_iff]

theorem reg_afterDraw_VF_eq_zero_iff :
    (s.afterDraw x y n).reg VF = 0 ↔
      ¬ ∃ py px, s.spriteLit x y n py px ∧ s.fb.pixel py px = true := by
  rw [reg_afterDraw_VF, flagByte_eq_zero_iff, ← drawn_hit_iff, Bool.not_eq_true]

/-- A DRW whose sprite lights no pixel finds no collision and changes no pixel (R224). -/
theorem afterDraw_of_no_lit (h : ¬ ∃ py px, s.spriteLit x y n py px) :
    (s.afterDraw x y n).reg VF = 0 ∧ (s.afterDraw x y n).fb = s.fb :=
  ⟨reg_afterDraw_VF_eq_zero_iff.2 fun ⟨py, px, hl, _⟩ => h ⟨py, px, hl⟩, drawn_fb_of_no_lit h⟩

/-- A sprite whose bytes are all zero lights no pixel. -/
theorem no_lit_of_bytes_zero (h : ∀ r, r < n → s.byteAt (s.i.toNat + r) = 0) :
    ¬ ∃ py px, s.spriteLit x y n py px := by
  rintro ⟨py, px, r, c, hr, -, -, -, -, -, hb⟩
  rw [h r hr] at hb
  simp at hb

/-! ## Frames (R221, R222, R226) -/

/-- What a new framebuffer leaves alone beside the general registers. -/
theorem frame_setScreen (s : State) (g : Screen) :
    SameMem s (s.setScreen g).advance ∧ (s.setScreen g).advance.i = s.i ∧
      SameStack s (s.setScreen g).advance ∧ SameTimers s (s.setScreen g).advance ∧
      SameHost s (s.setScreen g).advance :=
  ⟨fun _ => rfl, rfl, ⟨rfl, rfl⟩, ⟨rfl, rfl⟩, rfl, rfl, rfl, rfl, rfl, rfl⟩

theorem Effect.sameDisplay (he : Effect s i t) (hC : ∀ z, i ≠ .cls z) (hD : ∀ x y n, i ≠ .drw x y n) :
    SameDisplay s t := by
  cases he with
  | clear z => exact absurd rfl (hC z)
  | draw x y n => exact absurd rfl (hD x y n)
  | skip c => exact ⟨s.skipIf_fb c, s.skipIf_rf c⟩
  | _ => exact ⟨rfl, rfl⟩

end Sys2Proof.Machine

namespace Sys2Proof.Proofs

open Sys2Proof.Machine

/-- Settles O19. -/
theorem drawSpriteXorsPixels : Obligations.DrawSpriteXorsPixels := by
  intro x y n s
  refine ⟨decodes_of_eq_encode (hexXYN_toNat_eq_pack4 (by decide) x y n), exec_drw_of_out, fun hr => ?_⟩
  have hin : n.toNat = 0 ∨ s.base + n.toNat ≤ 4096 := by
    obtain rfl | hle := hr
    · exact Or.inl rfl
    · omega
  exact ⟨_, exec_drw_of_inRange hin, fun _ _ => drawn_pixel_of_lit, fun _ _ => drawn_pixel_of_not_lit,
    reg_afterDraw_VF_eq_one_iff.2, reg_afterDraw_VF_eq_zero_iff.2, rfl, rfl, sameRegsBut_write _ VF _,
    frame_setScreen s (s.drawn x y n.toNat).1⟩

/-- Settles O20. A pixel that changed was lit. -/
theorem drawChangesOnlyTheClippedBox : Obligations.DrawChangesOnlyTheClippedBox := by
  intro x y n s t py px h hne
  obtain ⟨-, rfl⟩ := drw_next_inv h
  have hlit : s.spriteLit x y n.toNat py px := by
    by_contra hl
    exact hne (drawn_pixel_of_not_lit hl)
  obtain ⟨⟨hx0, hx8, hx⟩, ⟨hy0, hyn, hy⟩, hb⟩ := spriteLit_iff_box.1 hlit
  exact ⟨hx0, le_min (Nat.le_of_lt_succ hx8) (Nat.le_of_lt_succ hx), hy0, lt_min hyn hy, hb⟩

/-- Settles O21. -/
theorem collisionNeedsALitPixel : Obligations.CollisionNeedsALitPixel := by
  intro x y n s t h
  obtain ⟨-, rfl⟩ := drw_next_inv h
  refine ⟨?_, reg_afterDraw_VF_eq_one_iff, afterDraw_of_no_lit,
    fun hzero => afterDraw_of_no_lit (no_lit_of_bytes_zero hzero)⟩
  rw [reg_afterDraw_VF_eq_zero_iff, reg_afterDraw_VF_eq_one_iff]
  exact (em _).symm

/-- Settles O22. Both draws light the same pixels: the second inverts each of them back, and finds set those
that the first found unset. -/
theorem drawingTwiceRestoresTheScreen : Obligations.DrawingTwiceRestoresTheScreen := by
  intro x y n s t u h hfb hi hb hx hy
  obtain ⟨hin, rfl⟩ := drw_next_inv h
  rw [afterDraw_fb] at hfb
  have hlit (py px : Nat) : u.spriteLit x y n.toNat py px ↔ s.spriteLit x y n.toNat py px :=
    spriteLit_congr hi hb hx hy
  have hbase : u.base = s.base := congrArg BitVec.toNat hi
  refine ⟨_, exec_drw_of_inRange (hbase.symm ▸ hin), Screen.ext_pixel fun py px _ _ => ?_, ?_⟩
  · rw [afterDraw_fb]
    by_cases hl : s.spriteLit x y n.toNat py px
    · rw [drawn_pixel_of_lit ((hlit py px).2 hl), hfb, drawn_pixel_of_lit hl, Bool.not_not]
    · rw [drawn_pixel_of_not_lit (mt (hlit py px).1 hl), hfb, drawn_pixel_of_not_lit hl]
  · rw [reg_afterDraw_VF_eq_one_iff, hfb]
    refine exists₂_congr fun py px => ?_
    rw [hlit]
    refine and_congr_right fun hl => ?_
    rw [drawn_pixel_of_lit hl, Bool.not_eq_true']

/-- Settles O23, from the effect of the instruction. -/
theorem onlyClearAndDrawTouchTheDisplay : Obligations.OnlyClearAndDrawTouchTheDisplay := by
  intro i s t h
  constructor
  · rintro (⟨z, rfl⟩ | ⟨x, y, n, rfl⟩)
    · cases h
      rfl
    · obtain ⟨-, rfl⟩ := drw_next_inv h
      rfl
  · intro hC hD
    exact (effect_of_exec h).sameDisplay (fun z hz => hC ⟨z, hz⟩) fun x y n hd => hD ⟨x, y, n, hd⟩

/-- Settles O18. -/
theorem clearScreenSetsRedraw : Obligations.ClearScreenSetsRedraw := fun z s =>
  ⟨decodes_of_eq_encode (hexZ_eq_packXK (by decide) z (by decide)), _, rfl, Screen.pixel_blank, rfl, rfl,
    fun _ _ => rfl, frame_setScreen s _⟩

end Sys2Proof.Proofs

/-!
Keypad and timers (44_keypad_timer_instr.md R240 to R247): what the key instructions do in each case of the
key they name or wait for, and what a completed cycle makes of the delay timer.
-/

namespace Sys2Proof.Machine

variable {s t u : State} {x : Reg} {k : Fin 16}

/-! ## SKP and SKNP (R240, R241) -/

theorem keyState_of_eq_val {m : KeyIndexMode} {b : Byte} (h : b.toNat = k.val) (keys : Keys) :
    keyState m b keys = .ok keys[k.val] := by
  rw [keyState_of_lt (h ▸ k.isLt)]
  simp only [h]

theorem exec_skp_of_gt (h : 15 < (s.reg x).toNat) :
    exec (.skp x) s = .fault (.keyIndexOutOfRange (s.reg x)) := by
  simp only [exec, execSkp, keyState_of_ge (Nat.not_lt.2 h), raise]

theorem exec_sknp_of_gt (h : 15 < (s.reg x).toNat) :
    exec (.sknp x) s = .fault (.keyIndexOutOfRange (s.reg x)) := by
  simp only [exec, execSknp, keyState_of_ge (Nat.not_lt.2 h), raise]

theorem exec_skp_of_key (h : (s.reg x).toNat = k.val) :
    exec (.skp x) s = .next (s.skipIf s.keys[k.val]) := by
  simp only [exec, execSkp, keyState_of_eq_val h]

theorem exec_sknp_of_key (h : (s.reg x).toNat = k.val) :
    exec (.sknp x) s = .next (s.skipIf !s.keys[k.val]) := by
  simp only [exec, execSknp, keyState_of_eq_val h]

theorem skipIf_not_pc (s : State) (c : Bool) :
    (s.skipIf !c).pc = if c = true then s.pc + 2 else s.pc + 4 := by
  cases c <;> rfl

/-! ## LD Vx,K (R243, R246) -/

theorem exec_ldVxK_of_no_key (h : ∀ k : Fin 16, s.keys[k.val] = false) :
    exec (.ldVxK x) s = .next s := by
  simp only [exec, execLdVxK, (selectKey_none_iff _ _).2 h]

theorem exec_ldVxK_of_least_key (hk : s.keys[k.val] = true)
    (hmin : ∀ j : Fin 16, j < k → s.keys[j.val] = false) :
    exec (.ldVxK x) s = .next (s.setReg x (byteOfReg k)).advance := by
  simp only [exec, execLdVxK, (selectKey_some_iff _ _ _).2 ⟨hk, hmin⟩]

/-! ## The timer loads (R244, R245) -/

/-- What a write of DT leaves alone. -/
theorem frame_setDt (s : State) (b : Byte) :
    SameRegsBut [] s (s.setDt b).advance ∧ SameMem s (s.setDt b).advance ∧ (s.setDt b).advance.i = s.i ∧
      SameStack s (s.setDt b).advance ∧ SameDisplay s (s.setDt b).advance ∧
      SameHost s (s.setDt b).advance :=
  ⟨fun _ _ => rfl, fun _ => rfl, rfl, ⟨rfl, rfl⟩, ⟨rfl, rfl⟩, rfl, rfl, rfl, rfl, rfl, rfl⟩

/-- What a write of ST leaves alone. -/
theorem frame_setSt (s : State) (b : Byte) :
    SameRegsBut [] s (s.setSt b).advance ∧ SameMem s (s.setSt b).advance ∧ (s.setSt b).advance.i = s.i ∧
      SameStack s (s.setSt b).advance ∧ SameDisplay s (s.setSt b).advance ∧
      SameHost s (s.setSt b).advance :=
  ⟨fun _ _ => rfl, fun _ => rfl, rfl, ⟨rfl, rfl⟩, ⟨rfl, rfl⟩, rfl, rfl, rfl, rfl, rfl, rfl⟩

/-! ## The delay timer over a cycle (R247, R272, R273) -/

/-- A cycle that completes ran the instruction it fetched, under the cycle's inputs, and then the timer
phase. -/
theorem cycle_completed_inv {r : Byte} {c a : Bool} {w : Word} {i : Instr}
    (h : cycle r c s = (t, .completed a)) (hf : fetch s = .ok w) (hd : Decodes w i) :
    ∃ u, exec i (beginCycle (some r) c s) = .next u ∧ t = timerPhase u := by
  have hbody := cycleBody_of_decode ((hostFrame_beginCycle (some r) c s).fetch.trans hf) hd
  rw [cycle, hbody] at h
  cases hu : exec i (beginCycle (some r) c s) <;> rw [hu] at h <;> cases h
  exact ⟨_, rfl, rfl⟩

/-- The timer phase after an instruction counts by the `tick` its cycle began with: no instruction writes
that input. -/
theorem timerPhase_dt_toNat {r : Option Byte} {c : Bool} {i : Instr}
    (h : exec i (beginCycle r c s) = .next u) :
    (timerPhase u).dt.toNat = if c then u.dt.toNat - 1 else u.dt.toNat := by
  obtain ⟨-, -, -, htick, -⟩ := exec_keeps_host h
  rw [timerPhase_dt, htick, beginCycle_tick, apply_ite BitVec.toNat, countDown_toNat]

end Sys2Proof.Machine

namespace Sys2Proof.Proofs

open Sys2Proof.Machine

/-- Settles O26. -/
theorem waitForKey : Obligations.WaitForKey := fun x s =>
  ⟨decodes_of_eq_encode (hexXK_eq_packXK (by decide) x (by decide)), exec_ldVxK_of_no_key,
    fun k hk hmin => ⟨_, exec_ldVxK_of_least_key hk hmin,
      (congrArg _ (reg_setReg_same s x _)).trans (byteOfReg_toNat k), rfl, sameRegsBut_write s x _,
      sameButRegs_write s x _⟩⟩

/-- Settles O45. The timer phase counts down what the instruction left in DT: the loaded byte after
LD DT,Vx, and what the cycle found there after any other instruction. -/
theorem delayTimerFallsOncePerCycle : Obligations.DelayTimerFallsOncePerCycle := by
  intro s t r c a w i h hf hd
  obtain ⟨u, hu, rfl⟩ := cycle_completed_inv h hf hd
  have hdt := timerPhase_dt_toNat hu
  refine ⟨?_, fun hi => ?_, ?_⟩
  · rintro x rfl
    cases hu
    exact hdt
  · rwa [(effect_of_exec hu).dt_eq hi] at hdt
  · rintro x rfl
    cases hu
    rw [reg_timerPhase, reg_advance, reg_setReg_same, beginCycle_dt]

/-- Settles O24. -/
theorem skipOnKey : Obligations.SkipOnKey := fun x s =>
  ⟨decodes_of_eq_encode (hexXK_eq_packXK (by decide) x (by decide)),
    decodes_of_eq_encode (hexXK_eq_packXK (by decide) x (by decide)),
    fun h => ⟨exec_skp_of_gt h, exec_sknp_of_gt h⟩,
    fun _ hk => ⟨⟨_, exec_skp_of_key hk, s.skipIf_pc _, sameRegs_skipIf s _, sameButRegs_skipIf s _⟩,
      ⟨_, exec_sknp_of_key hk, skipIf_not_pc s _, sameRegs_skipIf s _, sameButRegs_skipIf s _⟩⟩⟩

/-- Settles O25. Each load writes one register or one timer and advances PC. -/
theorem timerLoads : Obligations.TimerLoads := fun x s =>
  ⟨decodes_of_eq_encode (hexXK_eq_packXK (by decide) x (by decide)),
    decodes_of_eq_encode (hexXK_eq_packXK (by decide) x (by decide)),
    decodes_of_eq_encode (hexXK_eq_packXK (by decide) x (by decide)),
    ⟨_, rfl, reg_setReg_same s x _, rfl, sameRegsBut_write s x _, sameButRegs_write s x _⟩,
    ⟨_, rfl, rfl, rfl, rfl, frame_setDt s _⟩,
    ⟨_, rfl, rfl, rfl, rfl, frame_setSt s _⟩⟩

end Sys2Proof.Proofs

/-!
Faults, timer ticks and the host (60_exceptions.md R260 to R285): which instruction raises what, what a fault
depends on, how the timers count, and the run of a finished program, whose cycles are `State.idle`.
-/

namespace Sys2Proof.Machine

variable {s t : State} {f : Fault} {x : Reg}

/-! ## The fault of an instruction (R261) -/

theorem call_fault_inv {a : Addr} (h : exec (.call a) s = .fault f) :
    s.sp = 16 ∧ f = .stackOverflow s.pc := by
  rcases push_cases s s.pc with ⟨hs, hp⟩ | ⟨_, hp⟩ <;> simp [exec, execCall, hp, raise] at h
  exact ⟨hs, h.symm⟩

theorem ret_fault_inv {z : Nibble} (h : exec (.ret z) s = .fault f) :
    s.sp = 0 ∧ f = .stackUnderflow s.pc := by
  rcases pop_cases s with ⟨hs, hp⟩ | ⟨_, hp⟩ <;> simp [exec, execRet, hp, raise] at h
  exact ⟨hs, h.symm⟩

theorem skp_fault_inv (h : exec (.skp x) s = .fault f) :
    15 < (s.reg x).toNat ∧ f = .keyIndexOutOfRange (s.reg x) := by
  by_cases hx : 15 < (s.reg x).toNat
  · cases (exec_skp_of_gt hx).symm.trans h
    exact ⟨hx, rfl⟩
  · cases (exec_skp_of_key (k := ⟨_, Nat.lt_succ_of_le (Nat.not_lt.1 hx)⟩) rfl).symm.trans h

theorem sknp_fault_inv (h : exec (.sknp x) s = .fault f) :
    15 < (s.reg x).toNat ∧ f = .keyIndexOutOfRange (s.reg x) := by
  by_cases hx : 15 < (s.reg x).toNat
  · cases (exec_sknp_of_gt hx).symm.trans h
    exact ⟨hx, rfl⟩
  · cases (exec_sknp_of_key (k := ⟨_, Nat.lt_succ_of_le (Nat.not_lt.1 hx)⟩) rfl).symm.trans h

theorem exec_ldVxK_ne_fault : exec (.ldVxK x) s ≠ .fault f := by
  simp only [exec, execLdVxK]
  split <;> nofun

end Sys2Proof.Machine

namespace Sys2Proof.Proofs

open Sys2Proof.Machine

/-- Settles O29. An instruction with a branch that faults, by that branch; every other one completes. -/
theorem faultsAreExactlyTheListedOnes : Obligations.FaultsAreExactlyTheListedOnes := by
  refine fun i s f => ⟨fun h => ?_, ?_⟩
  · cases i with
    | call a => exact .inl ⟨⟨a, rfl⟩, call_fault_inv h⟩
    | ret z => exact .inr (.inl ⟨⟨z, rfl⟩, ret_fault_inv h⟩)
    | drw x y n =>
      obtain ⟨hn, hout, rfl⟩ := withRange_fault_inv h
      have hn0 : n ≠ 0 := mt (congrArg BitVec.toNat) hn
      exact .inr (.inr (.inl ⟨x, y, n, rfl, hn0, Nat.le_sub_one_of_lt hout, rfl⟩))
    | ldB x =>
      obtain ⟨-, hout, rfl⟩ := withRange_fault_inv h
      exact .inr (.inr (.inr (.inl ⟨x, rfl, Nat.lt_of_succ_lt_succ hout, rfl⟩)))
    | storeRegs x =>
      obtain ⟨-, hout, rfl⟩ := withRange_fault_inv h
      exact .inr (.inr (.inr (.inr (.inl ⟨x, .inl rfl, Nat.lt_of_succ_lt_succ hout, rfl⟩))))
    | loadRegs x =>
      obtain ⟨-, hout, rfl⟩ := withRange_fault_inv h
      exact .inr (.inr (.inr (.inr (.inl ⟨x, .inr rfl, Nat.lt_of_succ_lt_succ hout, rfl⟩))))
    | skp x => exact .inr (.inr (.inr (.inr (.inr ⟨x, .inl rfl, skp_fault_inv h⟩))))
    | sknp x => exact .inr (.inr (.inr (.inr (.inr ⟨x, .inr rfl, sknp_fault_inv h⟩))))
    | ldVxK x => exact absurd h exec_ldVxK_ne_fault
    | _ => cases h
  · rintro (⟨⟨a, rfl⟩, hs, rfl⟩ | ⟨⟨z, rfl⟩, hs, rfl⟩ | ⟨x, y, n, rfl, hn, hout, rfl⟩ |
      ⟨x, rfl, hout, rfl⟩ | ⟨x, rfl | rfl, hout, rfl⟩ | ⟨x, rfl | rfl, hx, rfl⟩)
    · exact exec_call_of_full a hs
    · exact exec_ret_of_empty z hs
    · exact exec_drw_of_out hn hout
    · exact exec_ldB_of_gt (show 4093 < s.i.toNat by omega)
    · exact exec_storeRegs_of_gt hout
    · exact exec_loadRegs_of_gt hout
    · exact exec_skp_of_gt hx
    · exact exec_sknp_of_gt hx

end Sys2Proof.Proofs

namespace Sys2Proof.Machine

variable {s t : State} {i : Instr} {f : Fault} {r : Byte} {c : Bool}

/-! ## The fault of a cycle (R262, R264, R265) -/

theorem HostFrame.symm (h : HostFrame s t) : HostFrame t s :=
  ⟨h.mem.symm, h.v.symm, h.i.symm, h.pc.symm, h.stack.symm, h.sp.symm, h.dt.symm, h.st.symm, h.fb.symm⟩

/-- Everything a fault of an instruction depends on is out of the host's reach (R261, R283). -/
theorem HostFrame.exec_fault (hh : HostFrame s t) (h : exec i s = .fault f) : exec i t = .fault f := by
  have hlisted := (Proofs.faultsAreExactlyTheListedOnes i s f).1 h
  rw [← hh.sp, ← hh.pc, ← hh.i] at hlisted
  simp only [← hh.reg] at hlisted
  exact (Proofs.faultsAreExactlyTheListedOnes i t f).2 hlisted

/-- The three faults of a cycle, in the order of its stages. -/
theorem cycleBody_fault_inv (h : cycleBody s = .fault f) :
    fetch s = .error f ∨
      (∃ w e, fetch s = .ok w ∧ decodeWord Config.decodeStrict w = .error e ∧ f = .decodeFailure w) ∨
      ∃ w i, fetch s = .ok w ∧ Decodes w i ∧ exec i s = .fault f := by
  rcases cycleBody_cases s with ⟨g, hf, hc⟩ | ⟨w, e, hf, hd, hc⟩ | ⟨w, i, hf, hd, hc⟩
  · cases hc.symm.trans h
    exact .inl hf
  · cases hc.symm.trans h
    exact .inr (.inl ⟨w, e, hf, hd, rfl⟩)
  · exact .inr (.inr ⟨w, i, hf, hd, thenTimers_eq_fault.1 (hc.symm.trans h)⟩)

/-- The host cannot undo a fault: a state that differs in its part alone raises the same one. -/
theorem HostFrame.cycleBody_fault (hh : HostFrame s t) (h : cycleBody s = .fault f) :
    cycleBody t = .fault f := by
  rcases cycleBody_fault_inv h with hf | ⟨w, e, hf, hd, rfl⟩ | ⟨w, i, hf, hd, hx⟩
  · exact cycleBody_of_fetch_error (hh.fetch.trans hf)
  · exact cycleBody_of_decode_error (hh.fetch.trans hf) hd
  · rw [cycleBody_of_decode (hh.fetch.trans hf) hd, hh.exec_fault hx, thenTimers]

theorem cycle_of_cycleBody_fault (h : cycleBody (beginCycle (some r) c s) = .fault f) :
    cycle r c s = (s, .faulted f) := by
  rw [cycle, h]

theorem cycleBody_of_cycle_faulted (h : (cycle r c s).2 = .faulted f) :
    cycleBody (beginCycle (some r) c s) = .fault f := by
  cases hb : cycleBody (beginCycle (some r) c s) <;> simp [cycle, hb] at h
  rw [h]

/-- A cycle faults by the program's machine alone, so under any host operations and inputs (R264). -/
theorem HostFrame.cycle_fault (hh : HostFrame s t) (h : (cycle r c s).2 = .faulted f) (r' : Byte)
    (c' : Bool) : cycle r' c' t = (t, .faulted f) := by
  have hbegin : HostFrame (beginCycle (some r) c s) s := (hostFrame_beginCycle _ _ s).symm
  exact cycle_of_cycleBody_fault (((hbegin.trans hh).trans (hostFrame_beginCycle _ _ t)).cycleBody_fault
    (cycleBody_of_cycle_faulted h))

/-! ## The timer tick (R271, R276) -/

theorem countDown_zero : countDown 0 = 0 := rfl

theorem iterate_countDown_toNat (k : Nat) (b : Byte) : (countDown^[k] b).toNat = b.toNat - k := by
  induction k with
  | zero => rfl
  | succ k ih => rw [Function.iterate_succ_apply', countDown_toNat, ih, Nat.sub_sub]

theorem iterate_countDown_eq_zero_iff (k : Nat) (b : Byte) : countDown^[k] b = 0 ↔ b.toNat ≤ k := by
  rw [← BitVec.toNat_inj, iterate_countDown_toNat]
  exact Nat.sub_eq_zero_iff_le

theorem iterate_timerTick_dt (k : Nat) (s : State) : (timerTick^[k] s).dt = countDown^[k] s.dt :=
  Function.Semiconj.iterate_right (f := State.dt) timerTick_dt k s

theorem iterate_timerTick_st (k : Nat) (s : State) : (timerTick^[k] s).st = countDown^[k] s.st :=
  Function.Semiconj.iterate_right (f := State.st) timerTick_st k s

/-- The audio tick marks the tick that takes ST from 1 to 0 (R274). -/
theorem timerTick_audioTick_iff (s : State) : (timerTick s).audioTick = true ↔ s.st.toNat = 1 := by
  rw [timerTick_audioTick, decide_eq_true_iff, ← BitVec.toNat_inj]
  rfl

/-! ## The host's part of a step (R283) -/

theorem hostOp_apply_script (o : HostOp) (s : State) (cs : List CycleInput) :
    o.apply { s with script := cs } = { o.apply s with script := cs } := by
  cases o <;> rfl

theorem applyOps_script (ops : List HostOp) (s : State) (cs : List CycleInput) :
    applyOps ops { s with script := cs } = { applyOps ops s with script := cs } := by
  induction ops generalizing s with
  | nil => rfl
  | cons o ops ih => rw [applyOps, hostOp_apply_script, ih, applyOps]

theorem hostPhase_of_nil (h : s.script = []) : hostPhase s = beginCycle none Config.tickDefault s := by
  rw [hostPhase, h]

theorem hostPhase_of_cons {a : CycleInput} {cs : List CycleInput} (h : s.script = a :: cs) :
    hostPhase s = beginCycle a.rnd a.tick { applyOps a.ops s with script := cs } := by
  rw [hostPhase, h, ← applyOps_script]

/-! ## A finished program (R101, R285) -/

/-- A state after a cycle whose instruction changes nothing: the host's part and the timer phase. -/
def State.idle (s : State) : State := timerPhase (hostPhase s)

theorem zext16_setWidth_of_le {w : Word} (h : w.toNat ≤ 4094) : zext16 (w.setWidth 12) = w := by
  apply BitVec.eq_of_toNat_eq
  rw [zext16_toNat, BitVec.toNat_setWidth, Nat.mod_eq_of_lt (by omega)]

/-- A jump to its own address changes nothing. -/
theorem exec_jp_self (h : s.pc.toNat ≤ 4094) : exec (.jp (s.pc.setWidth 12)) s = .next s := by
  rw [exec, execJp, zext16_setWidth_of_le h]
  rfl

/-- Whether a program has finished is seen from PC and memory alone. -/
theorem State.Finished.of_same (h : s.Finished) (hpc : t.pc = s.pc) (hmem : t.mem = s.mem) :
    t.Finished := by
  obtain ⟨w, hf, hd⟩ := h
  exact ⟨w, (fetch_congr hpc hmem).trans hf, hpc ▸ hd⟩

/-- A step of a finished program runs the jump to itself, which changes nothing. -/
theorem State.Finished.step_eq (h : s.Finished) : step s = .next s.idle := by
  have hhost := hostFrame_hostPhase s
  obtain ⟨w, hf, hd⟩ := h.of_same hhost.pc hhost.mem
  rw [step, cycleBody_of_decode hf hd, exec_jp_self (pc_le_of_fetch hf)]
  rfl

theorem countDown_if_le (c : Bool) (b : Byte) : (if c then countDown b else b).toNat ≤ b.toNat := by
  split
  · exact (countDown_toNat b).trans_le (Nat.sub_le ..)
  · exact le_rfl

/-- Of the program's machine only the timers may have changed, and they did not rise. -/
structure OnlyTimersFell (s t : State) : Prop where
  mem : t.mem = s.mem
  v : t.v = s.v
  i : t.i = s.i
  pc : t.pc = s.pc
  stack : t.stack = s.stack
  sp : t.sp = s.sp
  fb : t.fb = s.fb
  dt_le : t.dt.toNat ≤ s.dt.toNat
  st_le : t.st.toNat ≤ s.st.toNat

theorem OnlyTimersFell.refl (s : State) : OnlyTimersFell s s :=
  ⟨rfl, rfl, rfl, rfl, rfl, rfl, rfl, le_rfl, le_rfl⟩

theorem OnlyTimersFell.trans {u : State} (h : OnlyTimersFell s t) (g : OnlyTimersFell t u) :
    OnlyTimersFell s u :=
  ⟨g.mem.trans h.mem, g.v.trans h.v, g.i.trans h.i, g.pc.trans h.pc, g.stack.trans h.stack,
    g.sp.trans h.sp, g.fb.trans h.fb, g.dt_le.trans h.dt_le, g.st_le.trans h.st_le⟩

theorem HostFrame.onlyTimersFell (h : HostFrame s t) : OnlyTimersFell s t :=
  ⟨h.mem, h.v, h.i, h.pc, h.stack, h.sp, h.fb, h.dt ▸ le_rfl, h.st ▸ le_rfl⟩

theorem onlyTimersFell_timerPhase (s : State) : OnlyTimersFell s (timerPhase s) :=
  ⟨timerPhase_mem s, timerPhase_v s, timerPhase_i s, timerPhase_pc s, timerPhase_stack s,
    timerPhase_sp s, timerPhase_fb s, timerPhase_dt s ▸ countDown_if_le s.tick s.dt,
    timerPhase_st s ▸ countDown_if_le s.tick s.st⟩

theorem onlyTimersFell_idle (s : State) : OnlyTimersFell s s.idle :=
  (hostFrame_hostPhase s).onlyTimersFell.trans (onlyTimersFell_timerPhase _)

theorem onlyTimersFell_iterate_idle (k : Nat) (s : State) : OnlyTimersFell s (State.idle^[k] s) := by
  induction k generalizing s with
  | zero => exact .refl s
  | succ k ih => exact (onlyTimersFell_idle s).trans (ih s.idle)

theorem run_succ_of_step {M : Host.Core} {a b : M.State} (h : M.step a = .next b) (k : Nat) :
    M.run (k + 1) a = M.run k b := by
  rw [Host.Core.run, h]

/-- A finished program runs for as many steps as are asked, each an idle cycle. -/
theorem State.Finished.run_eq (h : s.Finished) (k : Nat) : core.run k s = .next (State.idle^[k] s) := by
  induction k generalizing s with
  | zero => rfl
  | succ k ih =>
    have hidle := onlyTimersFell_idle s
    exact (run_succ_of_step (M := core) h.step_eq k).trans (ih (h.of_same hidle.pc hidle.mem))

/-- `k` cycles with no host: KEYS and RF kept, no script, each timer at its value less `k`. -/
structure QuietFor (k : Nat) (s t : State) : Prop where
  script : t.script = []
  dt : t.dt = countDown^[k] s.dt
  st : t.st = countDown^[k] s.st
  keys : t.keys = s.keys
  rf : t.rf = s.rf

/-- With no script left the host does nothing and every cycle ticks (R273, D11). -/
theorem idle_of_nil (h : s.script = []) : s.idle = timerTick (beginCycle none true s) := by
  rw [State.idle, hostPhase_of_nil h]
  rfl

theorem quietFor_iterate_idle (h : s.script = []) (k : Nat) : QuietFor k s (State.idle^[k] s) := by
  induction k with
  | zero => exact ⟨h, rfl, rfl, rfl, rfl⟩
  | succ k ih =>
    rw [Function.iterate_succ_apply', idle_of_nil ih.script]
    exact ⟨ih.script, by simp [ih.dt, Function.iterate_succ_apply'],
      by simp [ih.st, Function.iterate_succ_apply'], ih.keys, ih.rf⟩

end Sys2Proof.Machine

namespace Sys2Proof.Proofs

open Sys2Proof.Machine

/-- Settles O57. A finished program only idles, and idling lets the timers fall; with no script left each
idle cycle is a timer tick. -/
theorem finishedProgramOnlyCountsDown : Obligations.FinishedProgramOnlyCountsDown := by
  intro s k h
  have hk := onlyTimersFell_iterate_idle k s
  refine ⟨_, h.run_eq k, h.of_same hk.pc hk.mem, hk.pc, hk.mem, hk.v, hk.i, ⟨hk.stack, hk.sp⟩, hk.fb,
    hk.dt_le, hk.st_le, fun hscript => ?_⟩
  have hq := quietFor_iterate_idle hscript k
  rw [hq.dt, hq.st, iterate_countDown_toNat, iterate_countDown_toNat]
  exact ⟨rfl, rfl, hq.keys, hq.rf⟩

/-- Settles O44. The (k+1)-st tick signals when k ticks have brought ST to 1. -/
theorem timersReachZeroAndStay : Obligations.TimersReachZeroAndStay := by
  intro s k
  rw [Function.iterate_succ_apply', timerTick_audioTick_iff, iterate_timerTick_dt, iterate_timerTick_st,
    iterate_countDown_toNat, iterate_countDown_toNat]
  exact ⟨rfl, rfl, iterate_countDown_eq_zero_iff k _, iterate_countDown_eq_zero_iff k _, by omega⟩

/-- Settles O46. A cycle faults by what the host cannot change. -/
theorem faultedMachineStaysFaulted : Obligations.FaultedMachineStaysFaulted := fun s r c _ h =>
  ⟨congrArg Prod.fst ((HostFrame.refl s).cycle_fault h r c),
    fun ops => (hostFrame_applyOps ops s).cycle_fault h⟩

/-- Settles O47. The fetch of a step reads what a fetch before the host's part reads. -/
theorem faultPriority : Obligations.FaultPriority := by
  intro s
  have hfetch := (hostFrame_hostPhase s).fetch
  refine ⟨fun hpc => ?_, fun w e hf hd => ?_, fun f h hpc hne => ?_⟩
  · exact cycleBody_of_fetch_error (hfetch.trans (fetch_of_gt hpc))
  · exact cycleBody_of_decode_error (hfetch.trans hf) hd
  · rcases cycleBody_fault_inv h with hf | ⟨w, e, -, -, hw⟩ | ⟨w, i, hf, hd, hx⟩
    · cases (hfetch.symm.trans hf).symm.trans (fetch_of_le hpc)
    · exact absurd hw (hne w)
    · exact ⟨w, i, hfetch.symm.trans hf, hd, hx⟩

/-- Settles O49. -/
theorem hostActsBeforeTheCycle : Obligations.HostActsBeforeTheCycle := by
  intro s
  have hh := hostFrame_hostPhase s
  refine ⟨hostPhase_of_nil, fun a cs h => ?_, hh.mem, hh.v, hh.i, hh.pc, ⟨hh.stack, hh.sp⟩,
    ⟨hh.dt, hh.st⟩, hh.fb⟩
  rw [hostPhase_of_cons h]
  exact ⟨rfl, rfl, rfl, rfl, rfl⟩

/-- Settles O43. -/
theorem timerTickCountsBothDown : Obligations.TimerTickCountsBothDown := fun s =>
  ⟨fun _ => countDown_toNat s.dt, fun h => (congrArg countDown h).trans countDown_zero,
    fun _ => countDown_toNat s.st, fun h => (congrArg countDown h).trans countDown_zero,
    timerTick_audioTick_iff s, rfl⟩

/-- Settles O48. -/
theorem hostOperationsTouchKeysAndRedraw : Obligations.HostOperationsTouchKeysAndRedraw := fun s k =>
  ⟨fun j => congrArg (·[j.val]) (s.setKeys_keys k), rfl, s.clearRedraw_rf, rfl, fun _ _ => rfl, rfl⟩

end Sys2Proof.Proofs

/-!
A cycle and a step stage by stage, and the memory image at reset (70_reset_and_hazards.md R300 to R307).
-/

namespace Sys2Proof.Machine

/-! ## The stages of a cycle (R306, R307) -/

section Stages

variable {s u : State} {w : Word} {i : Instr} {f : Fault} {r : Byte} {c : Bool}

theorem cycleBody_of_exec_next (hf : fetch s = .ok w) (hd : Decodes w i) (hx : exec i s = .next u) :
    cycleBody s = .next (timerPhase u) :=
  (cycleBody_of_decode hf hd).trans (thenTimers_eq_next.2 ⟨u, hx, rfl⟩)

theorem cycleBody_of_exec_fault (hf : fetch s = .ok w) (hd : Decodes w i) (hx : exec i s = .fault f) :
    cycleBody s = .fault f :=
  (cycleBody_of_decode hf hd).trans (thenTimers_eq_fault.2 hx)

theorem cycle_of_cycleBody_next (h : cycleBody (beginCycle (some r) c s) = .next u) :
    cycle r c s = (u, .completed u.audioTick) := by
  rw [cycle, h]

/-- No instruction writes the input `tick`, so the timer phase runs by the one the cycle began with. -/
theorem tick_of_exec_beginCycle {r : Option Byte} (h : exec i (beginCycle r c s) = .next u) :
    u.tick = c := by
  obtain ⟨-, -, -, htick, -⟩ := exec_keeps_host h
  exact htick

end Stages

/-! ## The memory image (R300, R301) -/

section Image

variable {s : State} {font program : List Byte}

/-- The reset state with the font stored at 0 and the program at 512. -/
def State.image (font program : List Byte) : State :=
  (State.reset.storeBytes 0 font).storeBytes 512 program

theorem construct_of_long (h : 3584 < program.length) :
    construct font program = .error (.programTooLarge program.length) := if_pos h

theorem construct_of_wrong_font (hp : program.length ≤ 3584) (hf : font.length ≠ 80) :
    construct font program = .error (.fontLength font.length) := by
  rw [construct, if_neg (Nat.not_lt.2 hp), if_pos hf]

theorem construct_of_sizes (hf : font.length = 80) (hp : program.length ≤ 3584) :
    construct font program = .ok (State.image font program) := by
  rw [construct, if_neg (Nat.not_lt.2 hp), if_neg (not_not.2 hf)]
  rfl

/-- A store of bytes in range keeps the invariant. -/
theorem State.Inv.storeBytes {a : Nat} {xs : List Byte} (hi : s.Inv) (ha : a + xs.length ≤ 4096) :
    (s.storeBytes a xs).Inv :=
  ⟨Memory.wf_writeBytes hi.memWf ha, hi.stackLive, hi.pcBound⟩

theorem reset_storeFont_inv (hf : font.length = 80) : (State.reset.storeBytes 0 font).Inv :=
  Proofs.resetMeetsTheInvariant.storeBytes (by omega)

theorem image_inv (hf : font.length = 80) (hp : program.length ≤ 3584) : (State.image font program).Inv :=
  (reset_storeFont_inv hf).storeBytes (by omega)

theorem byteAt_image_program (hf : font.length = 80) (hp : program.length ≤ 3584) {j : Nat}
    (hj : j < program.length) : (State.image font program).byteAt (512 + j) = program[j] :=
  byteAt_storeBytes_inside (reset_storeFont_inv hf).memWf (by omega) hj

/-- Outside the program the image reads as the font stored in empty memory. -/
theorem byteAt_image_of_not_program (hf : font.length = 80) (hp : program.length ≤ 3584) {a : Nat}
    (ha : a < 512 ∨ 512 + program.length ≤ a) :
    (State.image font program).byteAt a = (State.reset.storeBytes 0 font).byteAt a :=
  byteAt_storeBytes_outside (reset_storeFont_inv hf).memWf (by omega) ha

theorem byteAt_image_font (hf : font.length = 80) (hp : program.length ≤ 3584) {a : Nat}
    (ha : a < font.length) : (State.image font program).byteAt a = font[a] := by
  have hfont := byteAt_storeBytes_inside (s := State.reset) (a := 0) rfl (by omega) ha
  rw [byteAt_image_of_not_program hf hp (by omega), ← hfont, Nat.zero_add]

theorem byteAt_image_uncovered (hf : font.length = 80) (hp : program.length ≤ 3584) {a : Nat}
    (h80 : 80 ≤ a) (ha : a < 512 ∨ 512 + program.length ≤ a) :
    (State.image font program).byteAt a = Config.memFill :=
  (byteAt_image_of_not_program hf hp ha).trans (byteAt_storeBytes_outside rfl (by omega) (by omega))

end Image

end Sys2Proof.Machine

namespace Sys2Proof.Proofs

open Sys2Proof.Machine

/-- Settles O41. The fetch of a cycle reads what a fetch before it reads; the stage that faults, or the
completed instruction under the cycle's `tick`, gives state and result. -/
theorem cycleIsFetchDecodeExecuteTimers : Obligations.CycleIsFetchDecodeExecuteTimers := by
  intro s r c
  have hfetch := (hostFrame_beginCycle (some r) c s).fetch
  refine ⟨fun f hf => ?_, fun w e hf hd => ?_, fun w i f hf hd hx => ?_, fun w i u hf hd hx => ?_⟩
  · exact cycle_of_cycleBody_fault (cycleBody_of_fetch_error (hfetch.trans hf))
  · exact cycle_of_cycleBody_fault (cycleBody_of_decode_error (hfetch.trans hf) hd)
  · exact cycle_of_cycleBody_fault (cycleBody_of_exec_fault (hfetch.trans hf) hd hx)
  · rw [cycle_of_cycleBody_next (cycleBody_of_exec_next (hfetch.trans hf) hd hx), timerPhase_audioTick,
      timerPhase, tick_of_exec_beginCycle hx]

/-- Settles O51. -/
theorem constructBuildsTheImage : Obligations.ConstructBuildsTheImage := fun font program hf hp =>
  ⟨State.image font program, construct_of_sizes hf hp, fun _ => byteAt_image_font hf hp,
    fun _ => byteAt_image_program hf hp, fun _ => byteAt_image_uncovered hf hp, rfl, rfl, image_inv hf hp⟩

/-- Settles O40. A step is a cycle on the state after the host's part, whose fetch reads the same word. -/
theorem stepRunsTheDecodedInstruction : Obligations.StepRunsTheDecodedInstruction := fun s _ _ hf hd =>
  have hfetch := (hostFrame_hostPhase s).fetch.trans hf
  ⟨fun _ => cycleBody_of_exec_next hfetch hd, fun _ => cycleBody_of_exec_fault hfetch hd⟩

/-- Settles O52. A font and a program of the required sizes build a state, so nothing else fails. -/
theorem constructFailsOnlyOnSizes : Obligations.ConstructFailsOnlyOnSizes := by
  refine fun font program => ⟨construct_of_long, construct_of_wrong_font, fun e he => ?_⟩
  by_contra! hsizes
  obtain ⟨hp, hf⟩ := hsizes
  cases he.symm.trans (construct_of_sizes hf hp)

end Sys2Proof.Proofs
